-- ==== Sys2Proof/Word.lean ====
section
/-! DEFINITION. The machine's word types: the 8-bit register, the 16-bit command word, the 3-bit status signal and the element carrier. -/

namespace Sys2Proof

/-- The width of `cap`, `rd` and `wr` (00_scope.md R11). Arithmetic on it wraps modulo 256, the spec's `u8` (R14). -/
abbrev Byte := BitVec 8

/-- One command word (30_encoding.md R70). -/
abbrev Cmd := BitVec 16

/-- The status signals `p_status` and `c_status` (60_exceptions.md R151). -/
abbrev StatusCode := BitVec 3

/-- The carrier of one element. An instance's elements are its low `P_WIDTH` bits, the rest zero
(00_scope.md R9). DESIGN CHOICE, log 3; safe. -/
abbrev Elem := BitVec 32

end Sys2Proof
end

