-- ==== Sys2Proof/Config.lean ====
section
/-! DEFINITION. What an implementation fixes (`P_WIDTH`, `P_MAX_CAP`) and the free values the spec leaves unspecified. -/

namespace Sys2Proof

/-- The legal element widths, `P_WIDTH` (00_scope.md R9); any other width cannot be written. -/
inductive Width
  | w8 | w16 | w32
deriving DecidableEq, Repr

/-- `P_WIDTH` in bits (R9). -/
def Width.bits : Width → Nat
  | .w8 => 8
  | .w16 => 16
  | .w32 => 32

/-- The implementation parameters of one instance: `P_WIDTH`, and `P_MAX_CAP` by its base-2 logarithm, so that
exactly the legal values 1, 2, 4, ..., 128 can be written (00_scope.md R9, R10; log 2). -/
structure Params where
  width     : Width
  logMaxCap : Fin 8
deriving DecidableEq, Repr

/-- `P_MAX_CAP`, the number of storage slots (R10). -/
def Params.maxCap (p : Params) : Nat := 2 ^ p.logMaxCap.val

namespace Config

/-- The instance that `State.reset` describes: the reference `P_MAX_CAP = 128` (R10). The spec names no reference
width: 32 is a DESIGN CHOICE, log 2; unsafe only for a claim about `State.reset` itself. -/
def reference : Params := { width := .w32, logMaxCap := 7 }

/-- FREE VALUE: what slot `k` holds until a push writes it (70_reset_and_hazards.md R171, 93 S1; log 4; safe). -/
opaque slotAtPowerUp : Nat → Elem

/-- FREE VALUE: the `n`-th element drawn: the data of POPU and PEEK on an empty buffer and the `rdata` of a reset
cycle (44_pop_peek.md R132, R134, 70_reset_and_hazards.md R170, 93 U1, U2, S2; log 5, log 6; safe). -/
opaque freeElem : Nat → Elem

/-- FREE VALUE: the `n`-th status drawn, for the status signals of a reset cycle (R170, 93 S2; log 6; safe). -/
opaque freeStatus : Nat → StatusCode

end Config

end Sys2Proof
end

