-- ==== Sys2Proof/Syntax.lean ====
section
/-! DEFINITION. The two ports and the twelve commands of spec/opcode_table.json. -/

namespace Sys2Proof

/-- The command ports (10_state.md R30): `P` the producer's, `C` the consumer's. -/
inductive Port
  | P | C
deriving DecidableEq, Repr

/-- The port at the other side of the block. -/
def Port.other : Port → Port
  | .P => .C
  | .C => .P

/-- A command as presented on a port, one constructor per row of the opcode table (30_encoding.md R74). The port
`x` is the one the command word stands on, and is no field of the word (log 12). The element of PUSH and PUSHU is
not here: it is the signal `p_wdata` (R71). -/
inductive Instr
  | nop   (x : Port)              -- R142
  | init  (x : Port) (c : Byte)   -- R101; `c` is `imm8`, the requested capacity
  | flush (x : Port)              -- R140
  | used  (x : Port)              -- R110
  | free  (x : Port)              -- R111
  | empty (x : Port)              -- R112
  | full  (x : Port)              -- R113
  | push  (x : Port)              -- R120
  | pushu (x : Port)              -- R122
  | pop   (x : Port)              -- R130
  | popu  (x : Port)              -- R132
  | peek  (x : Port)              -- R134
deriving DecidableEq, Repr

/-- The port a command is presented on. -/
def Instr.port : Instr → Port
  | .nop x => x
  | .init x _ => x
  | .flush x => x
  | .used x => x
  | .free x => x
  | .empty x => x
  | .full x => x
  | .push x => x
  | .pushu x => x
  | .pop x => x
  | .popu x => x
  | .peek x => x

end Sys2Proof
end

