-- ==== Sys2Proof/WellFormed.lean ====
section
/-! DEFINITION. Well-formed commands: the port legality table of 30_encoding.md R75. Every other operand is
well-formed by its type (`imm8` is 8 bits, R71). -/

namespace Sys2Proof

/-- R75: PUSH and PUSHU stand on port P only, POP, POPU and PEEK on port C only, every other command on either. -/
def Instr.wf : Instr → Bool
  | .nop _ => true
  | .init _ _ => true
  | .flush _ => true
  | .used _ => true
  | .free _ => true
  | .empty _ => true
  | .full _ => true
  | .push x => x == .P
  | .pushu x => x == .P
  | .pop x => x == .C
  | .popu x => x == .C
  | .peek x => x == .C

end Sys2Proof
end

