-- ==== Sys2Proof/Decode.lean ====
section
/-! DEFINITION. The command decoder (30_encoding.md R76), total on every word and port and rejecting by name, and
after it the encoder, from the opcode map of R74. -/

namespace Sys2Proof

/-- Why a word spells no command on a port (30_encoding.md R78). -/
inductive Illegal
  | reservedField      -- `rsv != 0`
  | reservedOpcode     -- opcode 0x7, 0xD, 0xE or 0xF
  | immediateNonzero   -- `imm8 != 0` outside INIT
  | wrongPort          -- a data-path command on the other side's port (R75)
deriving DecidableEq, Repr

/-- What a word on a port decodes to: one command of R74, or ILLEGAL (R76). -/
inductive Decoded
  | command (i : Instr)
  | illegal (why : Illegal)
deriving DecidableEq, Repr

/-- `cmd[15:12]` (R70). -/
def opcOf (w : Cmd) : BitVec 4 := w.extractLsb' 12 4

/-- `cmd[11:8]` (R70). -/
def rsvOf (w : Cmd) : BitVec 4 := w.extractLsb' 8 4

/-- `cmd[7:0]` (R70, R71). -/
def imm8Of (w : Cmd) : Byte := w.extractLsb' 0 8

/-- The opcode map of R74: the command opcode `opc` names on port `x`, with immediate `imm`. -/
def commandOf (x : Port) (opc : BitVec 4) (imm : Byte) : Decoded :=
  match opc.toNat with
  | 0x0 => .command (.nop x)
  | 0x1 => .command (.init x imm)
  | 0x2 => .command (.flush x)
  | 0x3 => .command (.used x)
  | 0x4 => .command (.free x)
  | 0x5 => .command (.empty x)
  | 0x6 => .command (.full x)
  | 0x8 => .command (.push x)
  | 0x9 => .command (.pushu x)
  | 0xA => .command (.pop x)
  | 0xB => .command (.popu x)
  | 0xC => .command (.peek x)
  | _ => .illegal .reservedOpcode

/-- `decode(X, cmd)` of R76, its tests in the spec's order. -/
def decode (x : Port) (w : Cmd) : Decoded :=
  if rsvOf w ≠ 0#4 then .illegal .reservedField
  else if opcOf w = 0x7#4 ∨ opcOf w = 0xD#4 ∨ opcOf w = 0xE#4 ∨ opcOf w = 0xF#4 then .illegal .reservedOpcode
  else if opcOf w ≠ 0x1#4 ∧ imm8Of w ≠ 0#8 then .illegal .immediateNonzero
  else if (opcOf w = 0x8#4 ∨ opcOf w = 0x9#4) ∧ x ≠ .P then .illegal .wrongPort
  else if (opcOf w = 0xA#4 ∨ opcOf w = 0xB#4 ∨ opcOf w = 0xC#4) ∧ x ≠ .C then .illegal .wrongPort
  else commandOf x (opcOf w) (imm8Of w)

/-- The opcode of a command (R74). -/
def Instr.opc : Instr → BitVec 4
  | .nop _ => 0x0#4
  | .init _ _ => 0x1#4
  | .flush _ => 0x2#4
  | .used _ => 0x3#4
  | .free _ => 0x4#4
  | .empty _ => 0x5#4
  | .full _ => 0x6#4
  | .push _ => 0x8#4
  | .pushu _ => 0x9#4
  | .pop _ => 0xA#4
  | .popu _ => 0xB#4
  | .peek _ => 0xC#4

/-- The immediate of a command: INIT's capacity, 0 for every other (R70). -/
def Instr.imm8 : Instr → Byte
  | .init _ c => c
  | .nop _ => 0#8
  | .flush _ => 0#8
  | .used _ => 0#8
  | .free _ => 0#8
  | .empty _ => 0#8
  | .full _ => 0#8
  | .push _ => 0#8
  | .pushu _ => 0#8
  | .pop _ => 0#8
  | .popu _ => 0#8
  | .peek _ => 0#8

/-- The command word of a command: `{opc, rsv = 0, imm8}` (R70, R74). -/
def encode (i : Instr) : Cmd := i.opc ++ 0#4 ++ i.imm8

/-- The command a row of the opcode table stands for, its word read on the port the table names for it (port P
where both are named; log 11). -/
def decodeTableWord (nbits w : Nat) : Option Instr :=
  if nbits ≤ 16 ∧ w < 2 ^ nbits then
    match decode .P (BitVec.ofNat 16 w) with
    | .command i => some i
    | .illegal _ =>
      match decode .C (BitVec.ofNat 16 w) with
      | .command i => some i
      | .illegal _ => none
  else none

end Sys2Proof
end

