-- ==== Sys2Proof/Machine/State.lean ====
section
/-! DEFINITION. The machine's state, its faults and refusals, the status codes, and the state after reset. -/

namespace Sys2Proof.Machine

/-- Why a step stops with a fault. -/
inductive Fault
  /-- Raised by PUSH, PUSHU, POP, POPU and PEEK on an access to slot `k >= P_MAX_CAP`, which does not exist
  (20_memory.md R50). No state that meets the invariant of R20 and R24 raises it. Safe. Log 10. -/
  | noSuchSlot (k : Nat)
deriving DecidableEq, Repr

/-- Why a step is refused. -/
inductive Refusal
  /-- Raised by `exec` for a command without a meaning; no arm is left that raises it. Safe. -/
  | notModelled (mnemonic : String)
deriving DecidableEq, Repr

/-- The status codes of 60_exceptions.md R151; code 7 is reserved and has no name. -/
inductive Status
  | ok | invalidCapacity | overflow | underflow | illegal | uninit | conflict
deriving DecidableEq, Repr

/-- The contract violations V1 to V7 of 60_exceptions.md R160, in that order. -/
inductive Violation
  | unreadOverwritten | emptyPopped | emptyPeeked | conflicting | uninitialized | illegalWord | corrupted
deriving DecidableEq, Repr

/-- The input signals of one cycle (10_state.md R30; a run's inputs, 70_reset_and_hazards.md R183). -/
structure CycleIn where
  rst    : Bool
  pCmd   : Cmd
  pWdata : Elem
  cCmd   : Cmd
deriving DecidableEq, Repr

/-- The inputs of a cycle in which nothing is presented: no reset, NOP on both ports (60_exceptions.md R163), and
`p_wdata` 0 (30_encoding.md R80). -/
def CycleIn.idle : CycleIn := { rst := false, pCmd := 0#16, pWdata := 0#32, cCmd := 0#16 }

/-- Slot storage: the slots written so far with their elements, slot numbers strictly rising. A slot that is not
listed has not been written; what it reads as is `readSlot`'s (20_memory.md R50; log 4). -/
abbrev Memory := List (Nat × Elem)

/-- The block's registers and storage (10_state.md R28), the contract flag of R160, the port signals of R30, and
the model's own draw counter. -/
structure State where
  /-- `P_WIDTH` and `P_MAX_CAP`; no step changes them (R9, R10; log 2). -/
  params   : Params
  /-- The capacity register; 0 while uninitialized (R20). -/
  cap      : Byte
  /-- The read index (R22). -/
  rd       : Byte
  /-- The write index (R23). -/
  wr       : Byte
  /-- The slot storage (R25). -/
  mem      : Memory
  /-- The sticky contract-violation flag of R160. -/
  violated : Bool
  /-- `p_status` of the last clocked cycle (R30, R32; log 7). -/
  pStatus  : StatusCode
  /-- `p_rdata` of the last clocked cycle. -/
  pRdata   : Elem
  /-- `c_status` of the last clocked cycle. -/
  cStatus  : StatusCode
  /-- `c_rdata` of the last clocked cycle. -/
  cRdata   : Elem
  /-- The input signals of the cycles to come, the next one first; past its end both ports are idle (log 1). -/
  inputs   : List CycleIn
  /-- The model's own: how many free values have been drawn (log 5). -/
  draws    : Nat
deriving DecidableEq, Repr

/-- The input signals of the cycle the next step clocks (log 1). -/
def State.pins (s : State) : CycleIn := s.inputs.headD CycleIn.idle

/-- The reset state (70_reset_and_hazards.md R170 to R172, R183; 10_state.md R35). The response fields, `inputs`,
`draws` and `params` are the model's choices, logs 7, 1, 5 and 2. -/
def State.reset : State where
  params   := Config.reference
  cap      := 0#8
  rd       := 0#8
  wr       := 0#8
  mem      := []
  violated := false
  pStatus  := 0#3
  pRdata   := 0#32
  cStatus  := 0#3
  cRdata   := 0#32
  inputs   := []
  draws    := 0

end Sys2Proof.Machine
end

