-- ==== Sys2Proof/Machine/Flags.lean ====
section
/-! DEFINITION. The two combinational sub-blocks: `index_wrap_logic` (40_index_occupancy.md R90 to R92) and
`occupancy_counter` (R93 to R97), and the status outputs they drive (10_state.md R33). -/

namespace Sys2Proof.Machine

/-- `mask = u8(2*N - 1)` (R90). -/
def maskOf (cap : Byte) : Byte := 2#8 * cap - 1#8

/-- `smask = u8(N - 1)` (R90). -/
def smaskOf (cap : Byte) : Byte := cap - 1#8

/-- `next(x) = u8(x + 1) & mask` (R91). -/
def nextIndex (cap x : Byte) : Byte := (x + 1#8) &&& maskOf cap

/-- `slot(x) = x & smask` (R92, 20_memory.md R51). -/
def slotOf (cap x : Byte) : Byte := x &&& smaskOf cap

/-- `used = u8(wr - rd) & mask` (R93). -/
def State.usedCount (s : State) : Byte := (s.wr - s.rd) &&& maskOf s.cap

/-- `free = u8(N - used)` (R94). -/
def State.freeCount (s : State) : Byte := s.cap - s.usedCount

/-- `empty = (wr == rd)` (R95). -/
def State.isEmpty (s : State) : Bool := s.wr == s.rd

/-- `full = (used == N)` (R96). -/
def State.isFull (s : State) : Bool := s.usedCount == s.cap

/-- The slot a push writes, `wr & smask` (R120). -/
def State.pushSlot (s : State) : Byte := slotOf s.cap s.wr

/-- The slot a pop or peek reads, `rd & smask` (R130). -/
def State.popSlot (s : State) : Byte := slotOf s.cap s.rd

/-- The status outputs of 10_state.md R33. -/
structure StatusOutputs where
  usedCount : Byte
  freeCount : Byte
  empty     : BitVec 1
  full      : BitVec 1
deriving DecidableEq, Repr

/-- What the status outputs show in a state, in every cycle and also during reset (R33, R186). -/
def State.statusOutputs (s : State) : StatusOutputs where
  usedCount := s.usedCount
  freeCount := s.freeCount
  empty     := BitVec.ofBool s.isEmpty
  full      := BitVec.ofBool s.isFull

/-- `is_pow2(c)` (00_scope.md R14). -/
def isPow2 (c : Byte) : Bool := c != 0#8 && (c &&& (c - 1#8)) == 0#8

/-- `valid_cap(c)` (41_init.md R100). -/
def validCap (p : Params) (c : Byte) : Bool := isPow2 c && decide (c.toNat ≤ p.maxCap)

end Sys2Proof.Machine
end

