-- ==== Sys2Proof/Machine/Operands.lean ====
section
/-! DEFINITION. Operand forms and result widths: the element operand of a push, the command word of a port, and the
zero-extension of query results (30_encoding.md R71, 42_queries.md). -/

namespace Sys2Proof.Machine

/-- The low `P_WIDTH` bits of a value, the rest zero: what a `P_WIDTH`-bit signal or slot carries of it
(00_scope.md R9; log 3). -/
def fit (w : Width) (v : Elem) : Elem := (v.setWidth w.bits).setWidth 32

/-- The command word on a port in a cycle (R30, R70). -/
def CycleIn.cmd (c : CycleIn) : Port → Cmd
  | .P => c.pCmd
  | .C => c.cCmd

/-- The element operand of PUSH and PUSHU: all `P_WIDTH` bits of `p_wdata` (R71, R120). -/
def State.pushOperand (s : State) : Elem := fit s.params.width s.pins.pWdata

/-- `zext_W` of an 8-bit count (R110, R111). -/
def zextCount (b : Byte) : Elem := b.setWidth 32

/-- `zext_W(bool(b))` (R112, R113). -/
def zextBool (b : Bool) : Elem := (BitVec.ofBool b).setWidth 32

end Sys2Proof.Machine
end

