-- ==== Sys2Proof/Machine/Ops.lean ====
section
/-! DEFINITION. The named operations over registers, storage and responses, the error response (the spec's whole
exception mechanism), the dispatch ladder shared by every command, and the reset of the block. -/

namespace Sys2Proof.Machine

/-! ## Storage -/

/-- The element listed for slot `k`, if the slot has been written. -/
def Memory.lookup : Memory → Nat → Option Elem
  | [], _ => none
  | (a, v) :: m, k => if a = k then some v else Memory.lookup m k

/-- `MemWrite(k, 1, v)`: the whole element of slot `k` is replaced (20_memory.md R50); slot numbers stay in
rising order. -/
def Memory.write : Memory → Nat → Elem → Memory
  | [], k, v => [(k, v)]
  | (a, w) :: m, k, v =>
    if k < a then (k, v) :: (a, w) :: m
    else if k = a then (k, v) :: m
    else (a, w) :: Memory.write m k v

/-- Whether every slot number listed is above `k`. -/
def Memory.above (k : Nat) (m : Memory) : Bool := m.all fun c => decide (k < c.1)

/-- The canonical form: slot numbers strictly rising. An unlisted slot has no element (`lookup` gives none), so no
entry can repeat what it reads as (log 4). -/
def Memory.wf : Memory → Bool
  | [] => true
  | (a, _) :: m => Memory.above a m && Memory.wf m

/-- Every entry is a slot of the storage and holds an element of `P_WIDTH` bits (10_state.md R25). -/
def Memory.inStorage (p : Params) (m : Memory) : Bool :=
  m.all fun c => decide (c.1 < p.maxCap) && fit p.width c.2 == c.2

/-- `MemRead(k, 1)`: the whole element of slot `k` (R50); a slot never written holds an unspecified one
(70_reset_and_hazards.md R171; log 4). -/
def State.readSlot (s : State) (k : Nat) : Elem :=
  fit s.params.width ((s.mem.lookup k).getD (Config.slotAtPowerUp k))

/-- `mem'[k] <- v` (R50). -/
def State.writeSlot (s : State) (k : Nat) (v : Elem) : State := { s with mem := s.mem.write k v }

/-- An access to slot `k`: it goes on only where the slot exists (R50; log 10). -/
def withSlot (s : State) (k : Byte) (go : Host.Outcome State Fault Refusal) : Host.Outcome State Fault Refusal :=
  if k.toNat < s.params.maxCap then go else .fault (.noSuchSlot k.toNat)

/-! ## Registers -/

/-- `cap' <- c`. -/
def State.setCap (s : State) (c : Byte) : State := { s with cap := c }

/-- `rd' <- i`. -/
def State.setRd (s : State) (i : Byte) : State := { s with rd := i }

/-- `wr' <- i`. -/
def State.setWr (s : State) (i : Byte) : State := { s with wr := i }

/-- `rd' <- 0, wr' <- 0`: the effect INIT, FLUSH and reset share (41_init.md R101, 45_flush_nop.md R140). -/
def State.zeroIndices (s : State) : State := (s.setRd 0#8).setWr 0#8

/-- `rd` advanced by `index_wrap_logic` (R130). -/
def State.advanceRd (s : State) : State := s.setRd (nextIndex s.cap s.rd)

/-- `wr` advanced by `index_wrap_logic` (R120). -/
def State.advanceWr (s : State) : State := s.setWr (nextIndex s.cap s.wr)

/-! ## Free values -/

/-- The element the next draw gives, `P_WIDTH` bits (00_scope.md R16's `any`; log 5). -/
def State.drawnElem (s : State) : Elem := fit s.params.width (Config.freeElem s.draws)

/-- One free value has been drawn. -/
def State.countDraw (s : State) : State := { s with draws := s.draws + 1 }

/-! ## Responses and errors -/

/-- The code a status is driven as (60_exceptions.md R151). -/
def Status.code : Status → StatusCode
  | .ok => 0#3
  | .invalidCapacity => 1#3
  | .overflow => 2#3
  | .underflow => 3#3
  | .illegal => 4#3
  | .uninit => 5#3
  | .conflict => 6#3

/-- `respond(code, data)` on port `x` (00_scope.md R16). -/
def State.respond (s : State) (x : Port) (st : Status) (d : Elem) : State :=
  match x with
  | .P => { s with pStatus := st.code, pRdata := d }
  | .C => { s with cStatus := st.code, cRdata := d }

/-- Taking an error, the block's only exception: the code on the command's own port with `rdata = 0`, and no effect
on state (R16, R150). Nothing is saved, no mode changes, and there is no return (R157, R158). -/
def State.raiseError (s : State) (x : Port) (st : Status) : State := s.respond x st 0#32

/-! ## The dispatch ladder of 20_memory.md R60 -/

/-- `is_ctl`: INIT and FLUSH (R60). -/
def isCtl : Instr → Bool
  | .init _ _ => true
  | .flush _ => true
  | .nop _ => false
  | .used _ => false
  | .free _ => false
  | .empty _ => false
  | .full _ => false
  | .push _ => false
  | .pushu _ => false
  | .pop _ => false
  | .popu _ => false
  | .peek _ => false

/-- `is_active` on a decoded command: every one but NOP (R60). -/
def isActive : Instr → Bool
  | .nop _ => false
  | .init _ _ => true
  | .flush _ => true
  | .used _ => true
  | .free _ => true
  | .empty _ => true
  | .full _ => true
  | .push _ => true
  | .pushu _ => true
  | .pop _ => true
  | .popu _ => true
  | .peek _ => true

/-- Whether a command answers UNINIT while `cap = 0`: every one but NOP and INIT (60_exceptions.md R152). -/
def needsInit : Instr → Bool
  | .nop _ => false
  | .init _ _ => false
  | .flush _ => true
  | .used _ => true
  | .free _ => true
  | .empty _ => true
  | .full _ => true
  | .push _ => true
  | .pushu _ => true
  | .pop _ => true
  | .popu _ => true
  | .peek _ => true

/-- Two commands presented in one cycle conflict (60_exceptions.md R155). -/
def clash (i j : Instr) : Bool := (isCtl i && isActive j) || (isCtl j && isActive i)

/-- What the command word presented on port `x` decodes to in this cycle. -/
def State.decoded (s : State) (x : Port) : Decoded := decode x (s.pins.cmd x)

/-- Command `i` is in conflict with the command on the other port in this cycle; an ILLEGAL word there is inactive
(R155, 30_encoding.md R77). -/
def inConflict (i : Instr) (s : State) : Bool :=
  match s.decoded i.port.other with
  | .command j => clash i j
  | .illegal _ => false

/-- The tests every active command passes before its own rule applies, in the order of R60 and R154: ILLEGAL on
the wrong port, CONFLICT, UNINIT. -/
def guarded (i : Instr) (s : State) (go : Host.Outcome State Fault Refusal) : Host.Outcome State Fault Refusal :=
  if i.wf = false then .next (s.raiseError i.port .illegal)
  else if inConflict i s = true then .next (s.raiseError i.port .conflict)
  else if s.cap = 0#8 ∧ needsInit i = true then .next (s.raiseError i.port .uninit)
  else go

/-! ## Reset -/

/-- The effect of a cycle with `rst = 1` (70_reset_and_hazards.md R170): the registers are zeroed, storage keeps
its contents, neither command executes, and the four response signals are unspecified (log 6). -/
def State.resetBlock (s : State) : State :=
  { (s.setCap 0#8).zeroIndices with
    pStatus := Config.freeStatus s.draws
    pRdata  := fit s.params.width (Config.freeElem s.draws)
    cStatus := Config.freeStatus (s.draws + 1)
    cRdata  := fit s.params.width (Config.freeElem (s.draws + 1))
    draws   := s.draws + 2 }

end Sys2Proof.Machine
end

