-- ==== Sys2Proof/Machine/Contract.lean ====
section
/-! DEFINITION. The caller contract: which violations V1 to V7 one cycle commits (60_exceptions.md R160). -/

namespace Sys2Proof.Machine

/-- Port `x` executes `i` in this cycle: `i` is decoded, not ILLEGAL, not in conflict, and the block is initialized
(R160's "executes", word for word, so that a NOP executes too; DEDUCED, log 9; safe). -/
def executes (s : State) (x : Port) : Option Instr :=
  match s.decoded x with
  | .command i => if inConflict i s = true ∨ s.cap = 0#8 then none else some i
  | .illegal _ => none

/-- Port C executes POP or POPU. -/
def popExecutes (s : State) : Bool :=
  match executes s .C with
  | some (.pop _) => true
  | some (.popu _) => true
  | _ => false

/-- A response of the closed cycle carries status `st` on one of the ports. -/
def returned (t : State) (st : Status) : Bool := t.pStatus == st.code || t.cStatus == st.code

/-- Whether the cycle that starts in `s` and whose responses stand in `t` commits the violation (R160). -/
def commits (s t : State) : Violation → Bool
  | .unreadOverwritten => executes s .P == some (.pushu .P) && s.isFull && !popExecutes s
  | .emptyPopped => executes s .C == some (.popu .C) && s.isEmpty
  | .emptyPeeked => executes s .C == some (.peek .C) && s.isEmpty
  | .conflicting => returned t .conflict
  | .uninitialized => returned t .uninit
  | .illegalWord => returned t .illegal
  | .corrupted => decide (s.cap < s.usedCount) && ((executes s .P).isSome || (executes s .C).isSome)

/-- V1 to V7. -/
def allViolations : List Violation :=
  [.unreadOverwritten, .emptyPopped, .emptyPeeked, .conflicting, .uninitialized, .illegalWord, .corrupted]

/-- The violations of one cycle, in the order V1 to V7. -/
def violations (s t : State) : List Violation := allViolations.filter (commits s t)

end Sys2Proof.Machine
end

