-- ==== Sys2Proof/Machine/FlushNop.lean ====
section
/-! DEFINITION. Flush and no-operation: FLUSH and NOP (45_flush_nop.md). -/

namespace Sys2Proof.Machine

/-- FLUSH (R140): both indices to 0; `cap` and storage keep their values. -/
def execFlush (x : Port) (s : State) : Host.Outcome State Fault Refusal :=
  guarded (.flush x) s (.next (s.zeroIndices.respond x .ok 0#32))

/-- NOP (R142): OK in every state; it never causes or receives CONFLICT. -/
def execNop (x : Port) (s : State) : Host.Outcome State Fault Refusal := .next (s.respond x .ok 0#32)

end Sys2Proof.Machine
end

