-- ==== Sys2Proof/Machine/Init.lean ====
section
/-! DEFINITION. Initialization: INIT (41_init.md). -/

namespace Sys2Proof.Machine

/-- INIT `c` (R101 to R104): a valid capacity is recorded and both indices are zeroed; an invalid one changes
nothing. -/
def execInit (x : Port) (c : Byte) (s : State) : Host.Outcome State Fault Refusal :=
  guarded (.init x c) s <|
    if validCap s.params c then .next (((s.setCap c).zeroIndices).respond x .ok 0#32)
    else .next (s.raiseError x .invalidCapacity)

end Sys2Proof.Machine
end

