-- ==== Sys2Proof/Machine/Pop.lean ====
section
/-! DEFINITION. Pop and peek: POP, POPU, PEEK (44_pop_peek.md). -/

namespace Sys2Proof.Machine

/-- The state after a pop took the oldest element: `rd' <- next(rd)`, response OK with the slot's element
(R130, R132). -/
def State.popped (s : State) (x : Port) : State :=
  s.advanceRd.respond x .ok (s.readSlot s.popSlot.toNat)

/-- The oldest element is returned and its slot released, as POP and POPU both do (R131). -/
def takeElement (x : Port) (s : State) : Host.Outcome State Fault Refusal :=
  withSlot s s.popSlot (.next (s.popped x))

/-- POP (R130): UNDERFLOW on an empty buffer. -/
def execPop (x : Port) (s : State) : Host.Outcome State Fault Refusal :=
  guarded (.pop x) s <|
    if s.isEmpty then .next (s.raiseError x .underflow) else takeElement x s

/-- POPU (R132): no empty test; on an empty buffer `rd` still advances and the data is unspecified (log 5). -/
def execPopu (x : Port) (s : State) : Host.Outcome State Fault Refusal :=
  guarded (.popu x) s <|
    if s.isEmpty then .next ((s.advanceRd.countDraw).respond x .ok s.drawnElem) else takeElement x s

/-- PEEK (R134): the oldest element without removing it; on an empty buffer the data is unspecified (log 5). -/
def execPeek (x : Port) (s : State) : Host.Outcome State Fault Refusal :=
  guarded (.peek x) s <|
    if s.isEmpty then .next (s.countDraw.respond x .ok s.drawnElem)
    else withSlot s s.popSlot (.next (s.respond x .ok (s.readSlot s.popSlot.toNat)))

end Sys2Proof.Machine
end

