-- ==== Sys2Proof/Machine/Push.lean ====
section
/-! DEFINITION. Push: PUSH and PUSHU (43_push.md). -/

namespace Sys2Proof.Machine

/-- The state after a push took its element: `mem'[wr & smask] <- v, wr' <- next(wr)`, response OK (R120, R122). -/
def State.pushed (s : State) (x : Port) : State :=
  ((s.writeSlot s.pushSlot.toNat s.pushOperand).advanceWr).respond x .ok 0#32

/-- The element is stored and published, as PUSH and PUSHU both do (R121). -/
def storeElement (x : Port) (s : State) : Host.Outcome State Fault Refusal :=
  withSlot s s.pushSlot (.next (s.pushed x))

/-- PUSH (R120): OVERFLOW on a full buffer. -/
def execPush (x : Port) (s : State) : Host.Outcome State Fault Refusal :=
  guarded (.push x) s <|
    if s.isFull then .next (s.raiseError x .overflow) else storeElement x s

/-- PUSHU (R122): no full test; on a full buffer the oldest unread element is overwritten. -/
def execPushu (x : Port) (s : State) : Host.Outcome State Fault Refusal :=
  guarded (.pushu x) s (storeElement x s)

end Sys2Proof.Machine
end

