-- ==== Sys2Proof/Machine/Query.lean ====
section
/-! DEFINITION. Occupancy queries: USED, FREE, EMPTY, FULL (42_queries.md). -/

namespace Sys2Proof.Machine

/-- USED (R110). -/
def execUsed (x : Port) (s : State) : Host.Outcome State Fault Refusal :=
  guarded (.used x) s (.next (s.respond x .ok (zextCount s.usedCount)))

/-- FREE (R111). -/
def execFree (x : Port) (s : State) : Host.Outcome State Fault Refusal :=
  guarded (.free x) s (.next (s.respond x .ok (zextCount s.freeCount)))

/-- EMPTY (R112). -/
def execEmpty (x : Port) (s : State) : Host.Outcome State Fault Refusal :=
  guarded (.empty x) s (.next (s.respond x .ok (zextBool s.isEmpty)))

/-- FULL (R113). -/
def execFull (x : Port) (s : State) : Host.Outcome State Fault Refusal :=
  guarded (.full x) s (.next (s.respond x .ok (zextBool s.isFull)))

end Sys2Proof.Machine
end

