-- ==== Sys2Proof/Machine/Dispatch.lean ====
section
/-! DEFINITION. One arm per command: `exec(X, op, s, ...)` of 20_memory.md R60 for the command's own port. -/

namespace Sys2Proof.Machine

def exec (i : Instr) (s : State) : Host.Outcome State Fault Refusal :=
  match i with
  | .nop x => Sys2Proof.Machine.execNop x s
  | .init x c => Sys2Proof.Machine.execInit x c s
  | .flush x => Sys2Proof.Machine.execFlush x s
  | .used x => Sys2Proof.Machine.execUsed x s
  | .free x => Sys2Proof.Machine.execFree x s
  | .empty x => Sys2Proof.Machine.execEmpty x s
  | .full x => Sys2Proof.Machine.execFull x s
  | .push x => Sys2Proof.Machine.execPush x s
  | .pushu x => Sys2Proof.Machine.execPushu x s
  | .pop x => Sys2Proof.Machine.execPop x s
  | .popu x => Sys2Proof.Machine.execPopu x s
  | .peek x => Sys2Proof.Machine.execPeek x s

end Sys2Proof.Machine
end

