-- ==== Sys2Proof/Machine/Cycle.lean ====
section
/-! DEFINITION. The cycle step of 20_memory.md R60: both ports' commands run on the start-of-cycle state, and their
effects commit together at the closing edge. -/

namespace Sys2Proof.Machine

/-- Port `x`'s side of a cycle: its decoded command, or the ILLEGAL response (R60, 30_encoding.md R77). -/
def runPort (x : Port) (s : State) : Host.Outcome State Fault Refusal :=
  match s.decoded x with
  | .command i => exec i s
  | .illegal _ => .next (s.raiseError x .illegal)

/-- The value of a state element after the edge, from its value `old` at the start of the cycle and the values the
ports' commands leave in it: a port that assigns the element is the only one to (R61), and an element no port
assigns keeps its value (00_scope.md R15). DEDUCED, log 8; safe. -/
def commit {α : Type} [DecidableEq α] (old p c : α) : α := if p = old then c else p

/-- `apply(effP, apply(effC, s))` with both ports' responses (R60), from the states `p` and `c` that the producer's
and the consumer's command alone lead to from `s`. -/
def joinPorts (s p c : State) : State :=
  { s with
    cap     := commit s.cap p.cap c.cap
    rd      := commit s.rd p.rd c.rd
    wr      := commit s.wr p.wr c.wr
    mem     := commit s.mem p.mem c.mem
    draws   := commit s.draws p.draws c.draws
    pStatus := p.pStatus
    pRdata  := p.pRdata
    cStatus := c.cStatus
    cRdata  := c.cRdata }

/-- The inputs of the clocked cycle are gone. -/
def State.nextInputs (s : State) : State := { s with inputs := s.inputs.tail }

/-- The contract flag after a cycle from `s` that led to `t`: sticky (R160). -/
def State.recordViolations (s t : State) : State :=
  { t with violated := s.violated || !(violations s t).isEmpty }

/-- The closing edge of a cycle with `rst = 0`, from the ports' own results. -/
def closeCycle (s p c : State) : State := (s.recordViolations (joinPorts s p c)).nextInputs

/-- `step(s, rst, p_cmd, p_wdata, c_cmd)` of R60, its inputs taken from the state (log 1). A reset cycle does not
touch `violated` (R160). -/
def cycle (s : State) : Host.Outcome State Fault Refusal :=
  if s.pins.rst then .next s.resetBlock.nextInputs
  else
    match runPort .P s, runPort .C s with
    | .next p, .next c => .next (closeCycle s p c)
    | .fault r, _ => .fault r
    | .refused r, _ => .refused r
    | .next _, .fault r => .fault r
    | .next _, .refused r => .refused r

end Sys2Proof.Machine
end

