-- ==== Sys2Proof/Machine/Step.lean ====
section
/-! DEFINITION. One step of the machine is one clock cycle (10_state.md R32); and how the host presents one command. -/

namespace Sys2Proof.Machine

/-- One clock cycle (R32, R60). -/
def step (s : State) : Host.Outcome State Fault Refusal := cycle s

/-- The port a table word is presented on: P, unless it spells a command on port C alone (30_encoding.md R75;
log 11). -/
def tablePort (w : Cmd) : Port :=
  match decode .P w, decode .C w with
  | .illegal _, .command _ => .C
  | _, _ => .P

/-- The inputs of a cycle without reset that presents word `w` on port `x` and NOP on the other port. -/
def CycleIn.present (here : CycleIn) (x : Port) (w : Cmd) : CycleIn :=
  match x with
  | .P => { here with rst := false, pCmd := w, cCmd := 0#16 }
  | .C => { here with rst := false, pCmd := 0#16, cCmd := w }

/-- The state whose next cycle presents the command word `w`, alone (log 11). -/
def State.withFetchWord (s : State) (nbits w : Nat) : State :=
  let cmd := BitVec.ofNat 16 (w % 2 ^ nbits)
  { s with inputs := s.pins.present (tablePort cmd) cmd :: s.inputs.tail }

end Sys2Proof.Machine
end

