-- ==== Sys2Proof/Machine/Assembly.lean ====
section
/-! DEFINITION. The spec's text syntax for command sequences as abstract syntax, and the cycle inputs it stands for
(30_encoding.md R80, R81; log 14). -/

namespace Sys2Proof.Machine

/-- A number in a line: a literal, or the variable `i` of the enclosing `repeat` (R80, R81). -/
inductive Num
  | lit (n : Nat)
  | i
deriving DecidableEq, Repr

/-- `pcmd` of R80, and `.word`. -/
inductive PText
  | dash | nop | init (c : Num) | flush | used | free | empty | full | push (v : Num) | pushu (v : Num)
  | word (w : Nat)
deriving DecidableEq, Repr

/-- `ccmd` of R80, and `.word`. -/
inductive CText
  | dash | nop | init (c : Num) | flush | used | free | empty | full | pop | popu | peek
  | word (w : Nat)
deriving DecidableEq, Repr

/-- A line of R80, without its label, or the pseudo-command `repeat i = a .. b : pcmd | ccmd` of R81. -/
inductive Line
  | cycle (p : PText) (c : CText)
  | reset
  | repeated (a b : Nat) (p : PText) (c : CText)
deriving DecidableEq, Repr

/-- The value of a number; `i` has one only inside a `repeat`. R80's `num` is a literal, and a plain line that names `i`
stands for no inputs (DESIGN CHOICE, log 14; safe). -/
def Num.value (i : Option Nat) : Num → Option Nat
  | .lit k => some k
  | .i => i

/-- `INIT c` means `0x1000 | c` with `0 <= c <= 255` (R80). -/
def initWord (c : Nat) : Option Cmd := if c ≤ 255 then some (BitVec.ofNat 16 (0x1000 + c)) else none

/-- `.word 0xHHHH` (R80). -/
def rawWord (w : Nat) : Option Cmd := if w ≤ 0xFFFF then some (BitVec.ofNat 16 w) else none

/-- The element `v` of `PUSH v` and `PUSHU v`. R80 does not say what a `v` that `P_WIDTH` bits cannot hold means: it stands
for no inputs (DESIGN CHOICE, log 14; safe). -/
def elementText (w : Width) (v : Nat) : Option Elem := if v < 2 ^ w.bits then some (BitVec.ofNat 32 v) else none

/-- `p_cmd` of a producer text, `i` being the value of the enclosing `repeat`'s variable (R80, R81). -/
def PText.cmd (i : Option Nat) : PText → Option Cmd
  | .dash => some 0x0000#16
  | .nop => some 0x0000#16
  | .init c => (c.value i).bind initWord
  | .flush => some 0x2000#16
  | .used => some 0x3000#16
  | .free => some 0x4000#16
  | .empty => some 0x5000#16
  | .full => some 0x6000#16
  | .push _ => some 0x8000#16
  | .pushu _ => some 0x9000#16
  | .word n => rawWord n

/-- `p_wdata` of a producer text: the element of PUSH and PUSHU, 0 in every other cycle, that of a `.word` too (R80). -/
def PText.wdata (w : Width) (i : Option Nat) : PText → Option Elem
  | .push v => (v.value i).bind (elementText w)
  | .pushu v => (v.value i).bind (elementText w)
  | .dash => some 0#32
  | .nop => some 0#32
  | .init _ => some 0#32
  | .flush => some 0#32
  | .used => some 0#32
  | .free => some 0#32
  | .empty => some 0#32
  | .full => some 0#32
  | .word _ => some 0#32

/-- `c_cmd` of a consumer text (R80, R81). -/
def CText.cmd (i : Option Nat) : CText → Option Cmd
  | .dash => some 0x0000#16
  | .nop => some 0x0000#16
  | .init c => (c.value i).bind initWord
  | .flush => some 0x2000#16
  | .used => some 0x3000#16
  | .free => some 0x4000#16
  | .empty => some 0x5000#16
  | .full => some 0x6000#16
  | .pop => some 0xA000#16
  | .popu => some 0xB000#16
  | .peek => some 0xC000#16
  | .word n => rawWord n

/-- The inputs of one cycle line, for an instance of element width `w` and `i` the value of the enclosing `repeat`'s
variable; none where a number has no value or does not fit its field (DESIGN CHOICE, log 14; safe). -/
def cycleInputs (w : Width) (i : Option Nat) (p : PText) (c : CText) : Option CycleIn := do
  let pCmd ← p.cmd i
  let pWdata ← p.wdata w i
  let cCmd ← c.cmd i
  pure { rst := false, pCmd, pWdata, cCmd }

/-- The cycles a line stands for: one, a reset cycle, or `b - a + 1` of them, one per value of `i` (R80, R81). That a
`repeat` with `a > b` stands for no cycle, and that the ports are idle in a `RESET` cycle, is the model's reading
(DESIGN CHOICE, log 14; safe). -/
def Line.inputs (w : Width) : Line → Option (List CycleIn)
  | .cycle p c => (cycleInputs w none p c).map ([·])
  | .reset => some [{ CycleIn.idle with rst := true }]
  | .repeated a b p c => (List.range (b + 1 - a)).mapM fun k => cycleInputs w (some (a + k)) p c

/-- The cycle inputs of a whole text, for an instance of element width `w` (R80). -/
def assemble (w : Width) (text : List Line) : Option (List CycleIn) := (text.mapM (Line.inputs w)).map List.flatten

end Sys2Proof.Machine
end

