-- ==== Sys2Proof/Machine/Run.lean ====
section
/-! DEFINITION. A run of the block: cycle inputs in, per-cycle responses and the last state out
(70_reset_and_hazards.md R183). -/

namespace Sys2Proof.Machine

/-- The four response signals of one cycle (10_state.md R30). -/
structure CycleOut where
  pStatus : StatusCode
  pRdata  : Elem
  cStatus : StatusCode
  cRdata  : Elem
deriving DecidableEq, Repr

/-- The responses of the cycle that led to this state (R32; log 7). -/
def State.response (s : State) : CycleOut :=
  { pStatus := s.pStatus, pRdata := s.pRdata, cStatus := s.cStatus, cRdata := s.cRdata }

/-- The responses driven during the cycle a state stands at the start of: a function of that state and the cycle's inputs
alone (R32). -/
def State.responseNow (s : State) : Option CycleOut :=
  match step s with
  | .next t => some t.response
  | .fault _ => none
  | .refused _ => none

/-- A run may start here: the reset state with arbitrary storage (R183). -/
def State.startsRun (s : State) : Bool :=
  s.cap == 0#8 && s.rd == 0#8 && s.wr == 0#8 && !s.violated

/-- The cycles with inputs `cs`, one after the other: the list of responses and the state after the last edge
(R183). -/
def run : List CycleIn → State → Option (List CycleOut × State)
  | [], s => some ([], s)
  | c :: cs, s =>
    match step { s with inputs := [c] } with
    | .next t => (run cs t).map fun r => (t.response :: r.1, r.2)
    | .fault _ => none
    | .refused _ => none

end Sys2Proof.Machine
end

