-- ==== Sys2Proof/Safety.lean ====
section
/-! DEFINITION. What counts as a safe state and a safe run, in the terms the statements use: the structural invariant,
the contract, and the queue a state holds. -/

namespace Sys2Proof.Machine

/-- `cap` is 0 or a valid capacity of this instance (10_state.md R20, 41_init.md R100). -/
abbrev State.CapLegal (s : State) : Prop := s.cap = 0#8 ∨ validCap s.params s.cap = true

/-- The index range invariant of 10_state.md R24. -/
abbrev State.IndicesInRange (s : State) : Prop :=
  (s.cap = 0#8 → s.rd = 0#8 ∧ s.wr = 0#8) ∧
  (s.cap ≠ 0#8 → s.rd.toNat < 2 * s.cap.toNat ∧ s.wr.toNat < 2 * s.cap.toNat)

/-- The storage is in canonical form, lists only slots that exist, and holds elements of `P_WIDTH` bits
(10_state.md R25; log 4). -/
abbrev State.StorageOk (s : State) : Prop := s.mem.wf = true ∧ s.mem.inStorage s.params = true

/-- The structural invariant: it holds in every state reachable from reset, whatever is presented. -/
abbrev State.Inv (s : State) : Prop := s.CapLegal ∧ s.IndicesInRange ∧ s.StorageOk

/-- Not a corrupted state: `used <= N` (00_scope.md R18, 40_index_occupancy.md R98 law 1). -/
abbrev State.Uncorrupted (s : State) : Prop := s.usedCount.toNat ≤ s.cap.toNat

/-- A safe run so far has committed no contract violation, and then the state is not corrupted (60_exceptions.md
R160, 40_index_occupancy.md R98). -/
abbrev State.ContractBound (s : State) : Prop := s.violated = false → s.Uncorrupted

/-- The block is initialized (10_state.md R20). -/
abbrev State.Initialized (s : State) : Prop := s.cap ≠ 0#8

/-- The slot of the `n`-th oldest queued element: `(rd + n) & smask` (40_index_occupancy.md R92). -/
def State.nthSlot (s : State) (n : Nat) : Nat := (slotOf s.cap (s.rd + BitVec.ofNat 8 n)).toNat

/-- The queued elements, oldest first (20_memory.md R56). -/
def State.queue (s : State) : List Elem :=
  (List.range s.usedCount.toNat).map fun n => s.readSlot (s.nthSlot n)

/-- The block's registers and storage, without the port signals and the model's own fields (10_state.md R28). -/
def State.block (s : State) : Byte × Byte × Byte × Memory := (s.cap, s.rd, s.wr, s.mem)

/-- The status signal of a port in the last clocked cycle (10_state.md R30). -/
def State.statusOn (s : State) : Port → StatusCode
  | .P => s.pStatus
  | .C => s.cStatus

/-- The data signal of a port in the last clocked cycle (10_state.md R30). -/
def State.rdataOn (s : State) : Port → Elem
  | .P => s.pRdata
  | .C => s.cRdata

/-- The other port presents INIT or FLUSH in this cycle (60_exceptions.md R155). -/
def State.otherCtl (s : State) (x : Port) : Bool :=
  match s.decoded x.other with
  | .command j => isCtl j
  | .illegal _ => false

/-- The other port presents an active command in this cycle: neither NOP nor an ILLEGAL word (20_memory.md R60). -/
def State.otherActive (s : State) (x : Port) : Bool :=
  match s.decoded x.other with
  | .command j => isActive j
  | .illegal _ => false

/-- The value a query command returns in a state (42_queries.md R110 to R113); none for any other command. -/
def queryValue (s : State) : Instr → Option Elem
  | .used _ => some (zextCount s.usedCount)
  | .free _ => some (zextCount s.freeCount)
  | .empty _ => some (zextBool s.isEmpty)
  | .full _ => some (zextBool s.isFull)
  | .nop _ | .init _ _ | .flush _ | .push _ | .pushu _ | .pop _ | .popu _ | .peek _ => none

/-- The command's own error applies: INVALID_CAPACITY, OVERFLOW or UNDERFLOW (60_exceptions.md R154). -/
def ownError (s : State) : Instr → Option Status
  | .init _ c => if validCap s.params c then none else some .invalidCapacity
  | .push _ => if s.isFull then some .overflow else none
  | .pop _ => if s.isEmpty then some .underflow else none
  | .nop _ | .flush _ | .used _ | .free _ | .empty _ | .full _ | .pushu _ | .popu _ | .peek _ => none

/-- A cycle that presents word `w` on port `x` and nothing else. -/
def aloneOn (x : Port) (w : Cmd) : CycleIn := CycleIn.idle.present x w

/-- A cycle that presents PUSH of `v` on port P and nothing else (30_encoding.md R80). -/
def pushCycle (v : Elem) : CycleIn := { CycleIn.idle with pCmd := 0x8000#16, pWdata := v }

/-- A cycle that presents POP on port C and nothing else. -/
def popCycle : CycleIn := { CycleIn.idle with cCmd := 0xA000#16 }

end Sys2Proof.Machine
end

