-- ==== Sys2Proof/Certificates/Slice0/Obligations.lean ====
section
/-! DEFINITION. The statements for the provers. Each docstring names the rule of spec/ it formalises, or says that it is
derived or the model's own choice. -/

open Sys2Proof Sys2Proof.Machine

/-! ## Encoding -/

/-- R70, R74 to R76, derived: every bit of a command's encoding is read back, on the command's own port. -/
def Obligations.DecodeOfEncodeIsTheCommand : Prop :=
  ∀ i : Instr, i.wf = true → decode i.port (encode i) = .command i

/-- R76, derived: a word that decodes on a port has one reading, a legal command of that port with that encoding. -/
def Obligations.DecodedWordIsTheCommandsEncoding : Prop :=
  ∀ (x : Port) (w : Cmd) (i : Instr), decode x w = .command i → i.wf = true ∧ i.port = x ∧ encode i = w

/-- R78: the reserved encodings are exactly the words that decode as ILLEGAL. -/
def Obligations.ReservedWordsAreExactlyTheIllegalOnes : Prop :=
  ∀ (x : Port) (w : Cmd),
    (∃ why, decode x w = .illegal why) ↔
      (w.extractLsb' 12 4 = 0x7#4 ∨ w.extractLsb' 12 4 = 0xD#4 ∨ w.extractLsb' 12 4 = 0xE#4 ∨ w.extractLsb' 12 4 = 0xF#4) ∨
      w.extractLsb' 8 4 ≠ 0#4 ∨
      (w.extractLsb' 12 4 ≠ 0x1#4 ∧ w.extractLsb' 0 8 ≠ 0#8) ∨
      (x = .C ∧ (w.extractLsb' 12 4 = 0x8#4 ∨ w.extractLsb' 12 4 = 0x9#4)) ∨
      (x = .P ∧ (w.extractLsb' 12 4 = 0xA#4 ∨ w.extractLsb' 12 4 = 0xB#4 ∨ w.extractLsb' 12 4 = 0xC#4))

/-- R75: a command's word is ILLEGAL on a port exactly for PUSH and PUSHU on C, and POP, POPU and PEEK on P; and a command
on the wrong port answers ILLEGAL with no effect. -/
def Obligations.PortLegalityDecidesIllegal : Prop :=
  ∀ i : Instr,
    ((∃ why, decode i.port (encode i) = .illegal why) ↔
      i ∈ [.push .C, .pushu .C, .pop .P, .popu .P, .peek .P]) ∧
    ∀ s : State, i ∈ [.push .C, .pushu .C, .pop .P, .popu .P, .peek .P] →
      exec i s = .next (s.respond i.port .illegal 0#32)

/-- R82: the example words, and the ILLEGAL examples. -/
def Obligations.ExampleWordsDecode : Prop :=
  decode .P 0x0000#16 = .command (.nop .P) ∧ decode .P 0x1004#16 = .command (.init .P 4#8) ∧
  decode .C 0x1080#16 = .command (.init .C 128#8) ∧ decode .P 0x1003#16 = .command (.init .P 3#8) ∧
  exec (.init .P 3#8) State.reset = .next (State.reset.respond .P .invalidCapacity 0#32) ∧
  decode .C 0x2000#16 = .command (.flush .C) ∧ decode .P 0x3000#16 = .command (.used .P) ∧
  decode .C 0x4000#16 = .command (.free .C) ∧ decode .C 0x5000#16 = .command (.empty .C) ∧
  decode .P 0x6000#16 = .command (.full .P) ∧
  (∀ w, cycleInputs w none (.push (.lit 7)) .dash =
    some { rst := false, pCmd := 0x8000#16, pWdata := 7#32, cCmd := 0x0000#16 }) ∧
  decode .P 0x8000#16 = .command (.push .P) ∧
  (∀ w, cycleInputs w none (.pushu (.lit 6)) .dash =
    some { rst := false, pCmd := 0x9000#16, pWdata := 6#32, cCmd := 0x0000#16 }) ∧
  decode .P 0x9000#16 = .command (.pushu .P) ∧ decode .C 0xA000#16 = .command (.pop .C) ∧
  decode .C 0xB000#16 = .command (.popu .C) ∧ decode .C 0xC000#16 = .command (.peek .C) ∧
  (∀ x, decode x 0x0100#16 = .illegal .reservedField) ∧ (∀ x, decode x 0x0001#16 = .illegal .immediateNonzero) ∧
  (∀ x, decode x 0x8001#16 = .illegal .immediateNonzero) ∧ (∀ x, decode x 0x7000#16 = .illegal .reservedOpcode) ∧
  (∀ x, decode x 0xF0FF#16 = .illegal .reservedOpcode) ∧ decode .P 0xA000#16 = .illegal .wrongPort ∧
  decode .C 0x8000#16 = .illegal .wrongPort

/-- R81: `-` is NOP, and `repeat i = a .. b` is `b - a + 1` cycles, one per value of `i` from `a` up. (Which numbers have
no inputs is the model's choice, log 14.) -/
def Obligations.TextExpansion : Prop :=
  (∀ i, PText.cmd i .dash = some 0x0000#16 ∧ CText.cmd i .dash = some 0x0000#16) ∧
  ∀ (w : Width) (a b : Nat) (p : PText) (c : CText) (cs : List CycleIn), a ≤ b →
    (Line.repeated a b p c).inputs w = some cs →
    cs.length = b - a + 1 ∧ ∀ k, k < cs.length → cycleInputs w (some (a + k)) p c = cs[k]?

/-! ## The cycle -/

/-- R60, derived: a step runs the two decoded commands on the start-of-cycle state, and joins what each of them did.
The joining and the list of inputs are the model's form (log 8, log 1). -/
def Obligations.StepRunsBothDecodedCommands : Prop :=
  ∀ (s p c : State) (iP iC : Instr), s.pins.rst = false →
    decode .P s.pins.pCmd = .command iP → decode .C s.pins.cCmd = .command iC →
    exec iP s = .next p → exec iC s = .next c → step s = .next (closeCycle s p c)

/-- R60, derived: where the other port is idle, a step is the one command's `exec`, the other port answering OK. -/
def Obligations.StepRunsTheOnlyCommand : Prop :=
  (∀ (s p : State) (i : Instr), s.pins.rst = false → decode .P s.pins.pCmd = .command i → s.pins.cCmd = 0x0000#16 →
    exec i s = .next p →
    step s = .next (s.recordViolations { p with cStatus := 0#3, cRdata := 0#32 }).nextInputs) ∧
  (∀ (s c : State) (i : Instr), s.pins.rst = false → decode .C s.pins.cCmd = .command i → s.pins.pCmd = 0x0000#16 →
    exec i s = .next c →
    step s = .next (s.recordViolations { c with pStatus := 0#3, pRdata := 0#32 }).nextInputs)

/-- R77: an ILLEGAL word is answered (4, 0), and the cycle is otherwise the one with NOP in its place. -/
def Obligations.IllegalWordIsAnsweredAndInactive : Prop :=
  ∀ s : State, s.Inv → s.pins.rst = false →
    (∀ why, decode .P s.pins.pCmd = .illegal why →
      ∃ t u, step s = .next t ∧
        step { s with inputs := { s.pins with pCmd := 0x0000#16 } :: s.inputs.tail } = .next u ∧
        t.pStatus = 4#3 ∧ t.pRdata = 0#32 ∧ t.block = u.block ∧ t.cStatus = u.cStatus ∧ t.cRdata = u.cRdata ∧
        t.inputs = s.inputs.tail) ∧
    (∀ why, decode .C s.pins.cCmd = .illegal why →
      ∃ t u, step s = .next t ∧
        step { s with inputs := { s.pins with cCmd := 0x0000#16 } :: s.inputs.tail } = .next u ∧
        t.cStatus = 4#3 ∧ t.cRdata = 0#32 ∧ t.block = u.block ∧ t.pStatus = u.pStatus ∧ t.pRdata = u.pRdata ∧
        t.inputs = s.inputs.tail)

/-- R64: every cycle completes, with a status of R151 on both ports unless it is a reset cycle. -/
def Obligations.EveryCycleCompletes : Prop :=
  ∀ s : State, s.Inv → ∃ t, step s = .next t ∧
    (s.pins.rst = false → (∃ st : Status, t.pStatus = st.code) ∧ ∃ st : Status, t.cStatus = st.code)

/-- R61: the two ports' effects never change the same state element, so they can be applied in either order. -/
def Obligations.PortEffectsAreDisjoint : Prop :=
  ∀ (s p c : State) (iP iC : Instr),
    decode .P s.pins.pCmd = .command iP → decode .C s.pins.cCmd = .command iC →
    exec iP s = .next p → exec iC s = .next c →
    (isCtl iP = true → p.pStatus ≠ 6#3 → iC = .nop .C ∧ c.block = s.block) ∧
    (isCtl iC = true → c.cStatus ≠ 6#3 → iP = .nop .P ∧ p.block = s.block) ∧
    (isCtl iP = false → p.cap = s.cap ∧ p.rd = s.rd) ∧
    (isCtl iC = false → c.cap = s.cap ∧ c.wr = s.wr ∧ c.mem = s.mem) ∧
    (joinPorts s p c).block = (joinPorts s c p).block

/-- R62: a pop or peek returns its slot's value from the start of the cycle, whatever port P pushes; and within contract the
slot written and the slot read in one cycle differ, but for PUSHU on a full buffer and POPU or PEEK on an empty one. -/
def Obligations.ReadDuringWriteReturnsTheOldValue : Prop :=
  ∀ (s t : State) (iP iC : Instr), s.Inv → s.Initialized → s.pins.rst = false →
    decode .P s.pins.pCmd = .command iP → decode .C s.pins.cCmd = .command iC → isCtl iP = false →
    iC ∈ [.pop .C, .popu .C, .peek .C] → step s = .next t →
    (s.wr ≠ s.rd → t.cStatus = 0#3 ∧ t.cRdata = s.readSlot (s.rd &&& (s.cap - 1#8)).toNat) ∧
    (s.Uncorrupted → iP ∈ [.push .P, .pushu .P] → t.pStatus = 0#3 → t.cStatus = 0#3 →
      s.wr &&& (s.cap - 1#8) = s.rd &&& (s.cap - 1#8) →
      (iP = .pushu .P ∧ s.isFull = true) ∨ (s.isEmpty = true ∧ iC ∈ [.popu .C, .peek .C]))

/-- R63: the result of a cycle is that of its two commands one after the other, in the order of the rule's table; and the
rule's counter-example, PUSH with POPU on an empty one-slot buffer, which equals neither. -/
def Obligations.CycleEqualsASerialOrder : Prop :=
  (∀ (s : State) (wP wC : Cmd) (v : Elem) (iP iC : Instr), s.Inv → s.Initialized → s.Uncorrupted →
    decode .P wP = .command iP → decode .C wC = .command iC → clash iP iC = false →
    ¬ (iC = .popu .C ∧ s.isEmpty = true) →
    ∃ (o oP oC : CycleOut) (t u : State),
      run [{ rst := false, pCmd := wP, pWdata := v, cCmd := wC }] s = some ([o], t) ∧
      (if iP ∈ [.used .P, .free .P, .empty .P, .full .P] ∨
          (iP = .push .P ∧ s.isFull = true ∧ iC ∈ [.pop .C, .popu .C]) then
        run [{ rst := false, pCmd := wP, pWdata := v, cCmd := 0x0000#16 },
             { rst := false, pCmd := 0x0000#16, pWdata := v, cCmd := wC }] s = some ([oP, oC], u)
      else
        run [{ rst := false, pCmd := 0x0000#16, pWdata := v, cCmd := wC },
             { rst := false, pCmd := wP, pWdata := v, cCmd := 0x0000#16 }] s = some ([oC, oP], u)) ∧
      o.pStatus = oP.pStatus ∧ o.pRdata = oP.pRdata ∧ o.cStatus = oC.cStatus ∧ o.cRdata = oC.cRdata ∧
      t.block = u.block) ∧
  (∀ (s : State) (v : Elem), s.Inv → s.cap = 1#8 → s.wr = s.rd →
    ∃ (o o1 o2 : CycleOut) (t u : State),
      run [{ pushCycle v with cCmd := 0xB000#16 }] s = some ([o], t) ∧ o.pStatus = 0#3 ∧
      t.wr = nextIndex 1#8 s.wr ∧ t.rd = nextIndex 1#8 s.rd ∧ t.readSlot 0 = fit s.params.width v ∧
      run [aloneOn .C 0xB000#16, pushCycle v] s = some ([o1, o2], u) ∧ o2.pStatus = 2#3)

/-- R156: apart from CONFLICT a port's response is the same whatever word the other port presents; OVERFLOW on port P and a
successful POP happen in one cycle, and so do UNDERFLOW on port C and a successful PUSH. -/
def Obligations.PortStatusesAreIndependent : Prop :=
  (∀ (s t u : State) (w : Cmd), s.pins.rst = false → step s = .next t →
    step { s with inputs := { s.pins with cCmd := w } :: s.inputs.tail } = .next u → t.pStatus ≠ 6#3 → u.pStatus ≠ 6#3 →
    t.pStatus = u.pStatus ∧ t.pRdata = u.pRdata) ∧
  (∀ (s t u : State) (w : Cmd) (v : Elem), s.pins.rst = false → step s = .next t →
    step { s with inputs := { s.pins with pCmd := w, pWdata := v } :: s.inputs.tail } = .next u → t.cStatus ≠ 6#3 →
    u.cStatus ≠ 6#3 → t.cStatus = u.cStatus ∧ t.cRdata = u.cRdata) ∧
  ∀ s : State, s.Inv → s.Initialized → s.pins.rst = false → s.pins.pCmd = 0x8000#16 → s.pins.cCmd = 0xA000#16 →
    (s.isFull = true → ∃ t, step s = .next t ∧ t.pStatus = 2#3 ∧ t.cStatus = 0#3 ∧ t.wr = s.wr ∧
      t.rd = nextIndex s.cap s.rd ∧ t.mem = s.mem) ∧
    (s.isEmpty = true → ∃ t, step s = .next t ∧ t.pStatus = 0#3 ∧ t.cStatus = 3#3 ∧ t.rd = s.rd ∧
      t.wr = nextIndex s.cap s.wr ∧ t.readSlot s.pushSlot.toNat = s.pushOperand)

/-- R115: a query returns the occupancy at the start of its cycle, whatever the other port does in it. -/
def Obligations.QueriesSeeTheStartOfTheCycle : Prop :=
  ∀ (s t : State) (iP iC : Instr) (d : Elem), s.Initialized → s.pins.rst = false →
    decode .P s.pins.pCmd = .command iP → decode .C s.pins.cCmd = .command iC → step s = .next t →
    (queryValue s iP = some d → isCtl iC = false → t.pStatus = 0#3 ∧ t.pRdata = d) ∧
    (queryValue s iC = some d → isCtl iP = false → t.cStatus = 0#3 ∧ t.cRdata = d)

/-- R121, R184, derived: a POP in the cycle after a PUSH into an empty buffer returns its element; a POP in the cycle of the
PUSH gets UNDERFLOW (R185). -/
def Obligations.PushIsVisibleInTheNextCycle : Prop :=
  ∀ (s : State) (v : Elem), s.Inv → s.Initialized → s.isEmpty = true →
    ∃ (o1 o2 : CycleOut) (t : State), run [{ pushCycle v with cCmd := 0xA000#16 }, popCycle] s = some ([o1, o2], t) ∧
      o1.pStatus = 0#3 ∧ o1.cStatus = 3#3 ∧ o2.cStatus = 0#3 ∧ o2.cRdata = fit s.params.width v ∧ t.isEmpty = true

/-! ## Reset -/

/-- R170: a reset cycle zeroes the registers, keeps the storage, and executes neither command; its responses are free
values (log 6). -/
def Obligations.ResetCycleZeroesRegistersAndKeepsStorage : Prop :=
  ∀ s : State, s.pins.rst = true →
    ∃ t, step s = .next t ∧ t.cap = 0#8 ∧ t.rd = 0#8 ∧ t.wr = 0#8 ∧ (∀ k, t.readSlot k = s.readSlot k) ∧
      t.mem = s.mem ∧ t.violated = s.violated ∧ t.params = s.params ∧
      t.statusOutputs = { usedCount := 0#8, freeCount := 0#8, empty := 1#1, full := 1#1 } ∧
      t.pStatus = Config.freeStatus s.draws ∧ t.pRdata = fit s.params.width (Config.freeElem s.draws) ∧
      t.cStatus = Config.freeStatus (s.draws + 1) ∧ t.cRdata = fit s.params.width (Config.freeElem (s.draws + 1))

/-- R173: one reset cycle is enough, holding it keeps the reset state, and a new INIT is needed afterwards. -/
def Obligations.HeldResetKeepsTheResetState : Prop :=
  ∀ (s : State) (cs : List CycleIn), cs ≠ [] → (∀ c ∈ cs, c.rst = true) →
    ∃ os t, run cs s = some (os, t) ∧ t.block = (0#8, 0#8, 0#8, s.mem) ∧
      ∀ i : Instr, i.wf = true → needsInit i = true → inConflict i t = false →
        exec i t = .next (t.respond i.port .uninit 0#32)

/-- R35: the reset values; every slot reads as its own free value. -/
def Obligations.ResetStateHoldsTheResetValues : Prop :=
  State.reset.cap = 0#8 ∧ State.reset.rd = 0#8 ∧ State.reset.wr = 0#8 ∧
    ∀ k, State.reset.readSlot k = fit State.reset.params.width (Config.slotAtPowerUp k)

/-- R97: the status outputs and the queries of the uninitialized block; and `empty` with `full` in no initialized state. -/
def Obligations.UninitializedOutputsAndQueries : Prop :=
  (∀ s : State, s.cap = 0#8 → s.rd = 0#8 → s.wr = 0#8 →
    s.statusOutputs = { usedCount := 0#8, freeCount := 0#8, empty := 1#1, full := 1#1 } ∧
    ∀ x, s.otherCtl x = false → ∀ i ∈ [Instr.used x, .free x, .empty x, .full x],
      exec i s = .next (s.respond x .uninit 0#32)) ∧
  (∀ s : State, s.Inv → s.Initialized → ¬ (s.isEmpty = true ∧ s.isFull = true))

/-! ## The combinational sub-blocks -/

/-- R91: the index advance is `+ 1` modulo `2N` and wraps to 0 at the top; an index moves only by it or to 0, and stays below
`2N`. -/
def Obligations.IndexAdvancesModuloTwiceTheCapacity : Prop :=
  (∀ (p : Params) (c x : Byte), validCap p c = true → x.toNat < 2 * c.toNat →
    (nextIndex c x).toNat = (x.toNat + 1) % (2 * c.toNat)) ∧
  (∀ (p : Params) (c : Byte), validCap p c = true → nextIndex c (2#8 * c - 1#8) = 0#8) ∧
  (∀ s t : State, s.Inv → step s = .next t →
    (t.rd = s.rd ∨ t.rd = 0#8 ∨ t.rd = nextIndex s.cap s.rd) ∧
    (t.wr = s.wr ∨ t.wr = 0#8 ∨ t.wr = nextIndex s.cap s.wr) ∧
    (t.cap ≠ 0#8 → t.rd.toNat < 2 * t.cap.toNat ∧ t.wr.toNat < 2 * t.cap.toNat))

/-- R92: the slot is the index modulo `N`, `x` and `x + N` select one slot, and the two indices name one slot both when the
buffer is empty and when it is full. -/
def Obligations.SlotIsTheIndexModuloTheCapacity : Prop :=
  (∀ (p : Params) (c x : Byte), validCap p c = true →
    (slotOf c x).toNat = x.toNat % c.toNat ∧ slotOf c ((x + c) &&& (2#8 * c - 1#8)) = slotOf c x) ∧
  (∀ s : State, s.Inv → s.Initialized →
    (s.wr = s.rd ∨ s.wr.toNat = (s.rd.toNat + s.cap.toNat) % (2 * s.cap.toNat)) → s.pushSlot = s.popSlot)

/-- R93, derived: the used count is the index difference modulo `2N`. -/
def Obligations.UsedCountIsTheIndexDifference : Prop :=
  ∀ s : State, s.Inv → s.Initialized →
    (s.usedCount.toNat : Int) = ((s.wr.toNat : Int) - s.rd.toNat) % (2 * s.cap.toNat) ∧
    s.usedCount.toNat < 2 * s.cap.toNat

/-- R94: the free count is `N - used`, and wraps in a corrupted state. -/
def Obligations.FreeCountWrapsInACorruptedState : Prop :=
  ∀ s : State, s.Inv →
    (s.usedCount.toNat ≤ s.cap.toNat → s.freeCount.toNat = s.cap.toNat - s.usedCount.toNat ∧
      s.freeCount.toNat ≤ s.cap.toNat) ∧
    (s.cap.toNat < s.usedCount.toNat → s.freeCount.toNat = 256 + s.cap.toNat - s.usedCount.toNat ∧
      257 - s.cap.toNat ≤ s.freeCount.toNat ∧ s.freeCount.toNat ≤ 255)

/-- R95: `empty` compares the indices, and is true exactly when nothing is used. -/
def Obligations.EmptyExactlyWhenNothingIsUsed : Prop :=
  ∀ s : State, s.Inv → (s.isEmpty = true ↔ s.wr = s.rd) ∧ (s.isEmpty = true ↔ s.usedCount = 0#8)

/-- R98 laws 2 and 3, derived: within contract the counts add up, and `empty` and `full` are told apart. -/
def Obligations.OccupancyLawsWithinContract : Prop :=
  ∀ s : State, s.Inv → s.Initialized → s.Uncorrupted →
    s.usedCount.toNat + s.freeCount.toNat = s.cap.toNat ∧
    (s.isEmpty = true ↔ s.usedCount.toNat = 0) ∧ (s.isFull = true ↔ s.usedCount.toNat = s.cap.toNat) ∧
    ¬ (s.isEmpty = true ∧ s.isFull = true)

/-! ## The commands -/

/-- R100: the valid capacities are the powers of two up to `P_MAX_CAP`; for 128 slots, exactly eight values. -/
def Obligations.ValidCapacitiesArePowersOfTwo : Prop :=
  (∀ (p : Params) (c : Byte), validCap p c = true ↔ ∃ k, c.toNat = 2 ^ k ∧ c.toNat ≤ p.maxCap) ∧
  (∀ (p : Params) (c : Byte), p.maxCap = 128 →
    (validCap p c = true ↔ c ∈ [1#8, 2#8, 4#8, 8#8, 16#8, 32#8, 64#8, 128#8]))

/-- R101: INIT. -/
def Obligations.InitRecordsCapacityAndZeroesIndices : Prop :=
  ∀ (x : Port) (c : Byte) (s : State),
    decode x (0x1000#16 ||| c.setWidth 16) = .command (.init x c) ∧
    (s.otherActive x = true → exec (.init x c) s = .next (s.respond x .conflict 0#32)) ∧
    (s.otherActive x = false → validCap s.params c = false →
      exec (.init x c) s = .next (s.respond x .invalidCapacity 0#32)) ∧
    (s.otherActive x = false → validCap s.params c = true →
      exec (.init x c) s = .next (State.respond { s with cap := c, rd := 0#8, wr := 0#8 } x .ok 0#32) ∧
      (State.respond { s with cap := c, rd := 0#8, wr := 0#8 } x .ok 0#32).statusOutputs =
        { usedCount := 0#8, freeCount := c, empty := 1#1, full := 0#1 })

/-- R103: a failing INIT keeps `cap`, `rd`, `wr` and every slot. -/
def Obligations.FailingInitChangesNothing : Prop :=
  ∀ (x : Port) (c : Byte) (s t : State), exec (.init x c) s = .next t → t.statusOn x ≠ 0#3 →
    t.block = s.block ∧ (∀ k, t.readSlot k = s.readSlot k) ∧ t.statusOutputs = s.statusOutputs

/-- R140: FLUSH. -/
def Obligations.FlushZeroesBothIndices : Prop :=
  ∀ (x : Port) (s : State),
    decode x 0x2000#16 = .command (.flush x) ∧
    (s.otherActive x = true → exec (.flush x) s = .next (s.respond x .conflict 0#32)) ∧
    (s.otherActive x = false → s.cap = 0#8 → exec (.flush x) s = .next (s.respond x .uninit 0#32)) ∧
    (s.otherActive x = false → s.cap ≠ 0#8 →
      exec (.flush x) s = .next (State.respond { s with rd := 0#8, wr := 0#8 } x .ok 0#32) ∧
      (State.respond { s with rd := 0#8, wr := 0#8 } x .ok 0#32).statusOutputs =
        { usedCount := 0#8, freeCount := s.cap, empty := 1#1, full := 0#1 })

/-- R142: NOP answers OK in every state, and neither causes nor receives CONFLICT. -/
def Obligations.NopAnswersOkInEveryState : Prop :=
  ∀ (x : Port) (s : State),
    decode x 0x0000#16 = .command (.nop x) ∧ exec (.nop x) s = .next (s.respond x .ok 0#32) ∧
    ∀ i : Instr, clash i (.nop x) = false ∧ clash (.nop x) i = false

/-- R110: USED. -/
def Obligations.UsedReturnsTheUsedCount : Prop :=
  ∀ (x : Port) (s : State),
    decode x 0x3000#16 = .command (.used x) ∧
    (s.otherCtl x = true → exec (.used x) s = .next (s.respond x .conflict 0#32)) ∧
    (s.otherCtl x = false → s.cap = 0#8 → exec (.used x) s = .next (s.respond x .uninit 0#32)) ∧
    (s.otherCtl x = false → s.cap ≠ 0#8 →
      exec (.used x) s = .next (s.respond x .ok (((s.wr - s.rd) &&& (2#8 * s.cap - 1#8)).setWidth 32)))

/-- R111: FREE. -/
def Obligations.FreeReturnsTheFreeCount : Prop :=
  ∀ (x : Port) (s : State),
    decode x 0x4000#16 = .command (.free x) ∧
    (s.otherCtl x = true → exec (.free x) s = .next (s.respond x .conflict 0#32)) ∧
    (s.otherCtl x = false → s.cap = 0#8 → exec (.free x) s = .next (s.respond x .uninit 0#32)) ∧
    (s.otherCtl x = false → s.cap ≠ 0#8 →
      exec (.free x) s = .next (s.respond x .ok ((s.cap - ((s.wr - s.rd) &&& (2#8 * s.cap - 1#8))).setWidth 32)))

/-- R112: EMPTY. -/
def Obligations.EmptyReturnsWhetherTheIndicesAgree : Prop :=
  ∀ (x : Port) (s : State),
    decode x 0x5000#16 = .command (.empty x) ∧
    (s.otherCtl x = true → exec (.empty x) s = .next (s.respond x .conflict 0#32)) ∧
    (s.otherCtl x = false → s.cap = 0#8 → exec (.empty x) s = .next (s.respond x .uninit 0#32)) ∧
    (s.otherCtl x = false → s.cap ≠ 0#8 →
      exec (.empty x) s = .next (s.respond x .ok (if s.wr = s.rd then 1#32 else 0#32)))

/-- R113: FULL. -/
def Obligations.FullReturnsWhetherUsedIsTheCapacity : Prop :=
  ∀ (x : Port) (s : State),
    decode x 0x6000#16 = .command (.full x) ∧
    (s.otherCtl x = true → exec (.full x) s = .next (s.respond x .conflict 0#32)) ∧
    (s.otherCtl x = false → s.cap = 0#8 → exec (.full x) s = .next (s.respond x .uninit 0#32)) ∧
    (s.otherCtl x = false → s.cap ≠ 0#8 →
      exec (.full x) s =
        .next (s.respond x .ok (if (s.wr - s.rd) &&& (2#8 * s.cap - 1#8) = s.cap then 1#32 else 0#32)))

/-- R114: two queries in a row return the same value, each in one cycle, and assign no state. -/
def Obligations.QueriesRepeatTheirAnswer : Prop :=
  ∀ (s : State) (x : Port) (w : Cmd), s.Initialized → w ∈ [0x3000#16, 0x4000#16, 0x5000#16, 0x6000#16] →
    ∃ (o : CycleOut) (t : State), run [aloneOn x w, aloneOn x w] s = some ([o, o], t) ∧ t.block = s.block ∧
      (t.statusOn x = 0#3) ∧ ∃ i d, decode x w = .command i ∧ queryValue s i = some d ∧ t.rdataOn x = d

/-- R120: PUSH. -/
def Obligations.PushStoresTheElementAndAdvancesWr : Prop :=
  ∀ s : State,
    decode .P 0x8000#16 = .command (.push .P) ∧ decode .C 0x8000#16 = .illegal .wrongPort ∧
    exec (.push .C) s = .next (s.respond .C .illegal 0#32) ∧
    (s.otherCtl .P = true → exec (.push .P) s = .next (s.respond .P .conflict 0#32)) ∧
    (s.otherCtl .P = false → s.cap = 0#8 → exec (.push .P) s = .next (s.respond .P .uninit 0#32)) ∧
    (s.otherCtl .P = false → s.cap ≠ 0#8 → (s.wr - s.rd) &&& (2#8 * s.cap - 1#8) = s.cap →
      exec (.push .P) s = .next (s.respond .P .overflow 0#32)) ∧
    (s.otherCtl .P = false → validCap s.params s.cap = true → (s.wr - s.rd) &&& (2#8 * s.cap - 1#8) ≠ s.cap →
      exec (.push .P) s = .next (State.respond
        { s with
          mem := s.mem.write (s.wr &&& (s.cap - 1#8)).toNat (fit s.params.width s.pins.pWdata)
          wr  := (s.wr + 1#8) &&& (2#8 * s.cap - 1#8) } .P .ok 0#32)) ∧
    (s.otherCtl .P = false → s.Inv → s.Initialized → s.Uncorrupted → s.isFull = false →
      ∃ t, exec (.push .P) s = .next t ∧ t.usedCount.toNat = s.usedCount.toNat + 1 ∧
        t.freeCount.toNat + 1 = s.freeCount.toNat ∧ t.isEmpty = false ∧
        (t.isFull = true ↔ s.usedCount.toNat + 1 = s.cap.toNat))

/-- R122: PUSHU. -/
def Obligations.PushuStoresTheElementUnchecked : Prop :=
  ∀ s : State,
    decode .P 0x9000#16 = .command (.pushu .P) ∧ decode .C 0x9000#16 = .illegal .wrongPort ∧
    exec (.pushu .C) s = .next (s.respond .C .illegal 0#32) ∧
    (s.otherCtl .P = true → exec (.pushu .P) s = .next (s.respond .P .conflict 0#32)) ∧
    (s.otherCtl .P = false → s.cap = 0#8 → exec (.pushu .P) s = .next (s.respond .P .uninit 0#32)) ∧
    (s.otherCtl .P = false → validCap s.params s.cap = true →
      exec (.pushu .P) s = .next (State.respond
        { s with
          mem := s.mem.write (s.wr &&& (s.cap - 1#8)).toNat (fit s.params.width s.pins.pWdata)
          wr  := (s.wr + 1#8) &&& (2#8 * s.cap - 1#8) } .P .ok 0#32)) ∧
    (s.otherCtl .P = false → s.Inv → s.Initialized →
      ∃ t, exec (.pushu .P) s = .next t ∧
        t.usedCount.toNat = (s.usedCount.toNat + 1) % (2 * s.cap.toNat) ∧
        (s.isFull = true → s.pushSlot = s.popSlot ∧ t.readSlot s.popSlot.toNat = s.pushOperand))

/-- R120, R122, derived: the frame of PUSH and PUSHU. -/
def Obligations.PushFrame : Prop :=
  ∀ (x : Port) (i : Instr) (s t : State), i ∈ [.push x, .pushu x] → exec i s = .next t →
    t.cap = s.cap ∧ t.rd = s.rd ∧ t.params = s.params ∧ t.violated = s.violated ∧ t.inputs = s.inputs ∧
    t.draws = s.draws ∧ t.statusOn x.other = s.statusOn x.other ∧ t.rdataOn x.other = s.rdataOn x.other ∧
    (∀ k, k ≠ s.pushSlot.toNat → t.readSlot k = s.readSlot k) ∧
    (t.statusOn x = 0#3 → t.readSlot s.pushSlot.toNat = s.pushOperand ∧ t.wr = nextIndex s.cap s.wr) ∧
    (t.statusOn x ≠ 0#3 → (∀ k, t.readSlot k = s.readSlot k) ∧ t.wr = s.wr)

/-- R130: POP. -/
def Obligations.PopReturnsTheOldestElement : Prop :=
  ∀ s : State,
    decode .C 0xA000#16 = .command (.pop .C) ∧ decode .P 0xA000#16 = .illegal .wrongPort ∧
    exec (.pop .P) s = .next (s.respond .P .illegal 0#32) ∧
    (s.otherCtl .C = true → exec (.pop .C) s = .next (s.respond .C .conflict 0#32)) ∧
    (s.otherCtl .C = false → s.cap = 0#8 → exec (.pop .C) s = .next (s.respond .C .uninit 0#32)) ∧
    (s.otherCtl .C = false → s.cap ≠ 0#8 → s.wr = s.rd →
      exec (.pop .C) s = .next (s.respond .C .underflow 0#32)) ∧
    (s.otherCtl .C = false → validCap s.params s.cap = true → s.wr ≠ s.rd →
      exec (.pop .C) s = .next (State.respond { s with rd := (s.rd + 1#8) &&& (2#8 * s.cap - 1#8) } .C .ok
        (s.readSlot (s.rd &&& (s.cap - 1#8)).toNat))) ∧
    (s.otherCtl .C = false → s.Inv → s.Initialized → s.Uncorrupted → s.isEmpty = false →
      ∃ t, exec (.pop .C) s = .next t ∧ t.usedCount.toNat + 1 = s.usedCount.toNat ∧
        t.freeCount.toNat = s.freeCount.toNat + 1 ∧ t.isFull = false ∧ (t.isEmpty = true ↔ s.usedCount.toNat = 1))

/-- R132: POPU; on an empty buffer the data is a free value (log 5) and `rd` still advances. -/
def Obligations.PopuAdvancesUnchecked : Prop :=
  ∀ s : State,
    decode .C 0xB000#16 = .command (.popu .C) ∧ decode .P 0xB000#16 = .illegal .wrongPort ∧
    exec (.popu .P) s = .next (s.respond .P .illegal 0#32) ∧
    (s.otherCtl .C = true → exec (.popu .C) s = .next (s.respond .C .conflict 0#32)) ∧
    (s.otherCtl .C = false → s.cap = 0#8 → exec (.popu .C) s = .next (s.respond .C .uninit 0#32)) ∧
    (s.otherCtl .C = false → validCap s.params s.cap = true → s.wr ≠ s.rd →
      exec (.popu .C) s = .next (State.respond { s with rd := (s.rd + 1#8) &&& (2#8 * s.cap - 1#8) } .C .ok
        (s.readSlot (s.rd &&& (s.cap - 1#8)).toNat))) ∧
    (s.otherCtl .C = false → s.cap ≠ 0#8 → s.wr = s.rd →
      exec (.popu .C) s = .next (State.respond
        { s with rd := (s.rd + 1#8) &&& (2#8 * s.cap - 1#8), draws := s.draws + 1 } .C .ok
        (fit s.params.width (Config.freeElem s.draws)))) ∧
    (s.otherCtl .C = false → s.Inv → s.Initialized →
      ∃ t, exec (.popu .C) s = .next t ∧
        t.usedCount.toNat = (s.usedCount.toNat + (2 * s.cap.toNat - 1)) % (2 * s.cap.toNat))

/-- R134: PEEK; on an empty buffer the data is a free value (log 5). PEEK, then POP in the next cycle, return the same
element. -/
def Obligations.PeekReturnsTheOldestElementInPlace : Prop :=
  ∀ s : State,
    decode .C 0xC000#16 = .command (.peek .C) ∧ decode .P 0xC000#16 = .illegal .wrongPort ∧
    exec (.peek .P) s = .next (s.respond .P .illegal 0#32) ∧
    (s.otherCtl .C = true → exec (.peek .C) s = .next (s.respond .C .conflict 0#32)) ∧
    (s.otherCtl .C = false → s.cap = 0#8 → exec (.peek .C) s = .next (s.respond .C .uninit 0#32)) ∧
    (s.otherCtl .C = false → validCap s.params s.cap = true → s.wr ≠ s.rd →
      exec (.peek .C) s = .next (s.respond .C .ok (s.readSlot (s.rd &&& (s.cap - 1#8)).toNat))) ∧
    (s.otherCtl .C = false → s.cap ≠ 0#8 → s.wr = s.rd →
      exec (.peek .C) s = .next (State.respond { s with draws := s.draws + 1 } .C .ok
        (fit s.params.width (Config.freeElem s.draws)))) ∧
    (s.Inv → s.Initialized → s.isEmpty = false →
      ∃ (o1 o2 : CycleOut) (t : State), run [aloneOn .C 0xC000#16, popCycle] s = some ([o1, o2], t) ∧
        o1.cStatus = 0#3 ∧ o2.cStatus = 0#3 ∧ o1.cRdata = o2.cRdata)

/-- R130, R132, R134, derived: the frame of POP, POPU and PEEK. -/
def Obligations.PopAndPeekFrame : Prop :=
  ∀ (x : Port) (i : Instr) (s t : State), i ∈ [.pop x, .popu x, .peek x] → exec i s = .next t →
    t.cap = s.cap ∧ t.wr = s.wr ∧ (∀ k, t.readSlot k = s.readSlot k) ∧ t.params = s.params ∧
    t.violated = s.violated ∧ t.inputs = s.inputs ∧ t.statusOn x.other = s.statusOn x.other ∧
    t.rdataOn x.other = s.rdataOn x.other ∧
    (i = .peek x → t.rd = s.rd) ∧ (t.statusOn x ≠ 0#3 → t.rd = s.rd ∧ t.draws = s.draws) ∧
    (i ≠ .peek x → t.statusOn x = 0#3 → t.rd = nextIndex s.cap s.rd)

/-- R101, R110 to R113, R140, R142, derived: the frame of INIT, FLUSH, NOP and the queries. -/
def Obligations.ControlAndQueryFrame : Prop :=
  ∀ (i : Instr) (s t : State),
    (∀ x, i ∉ [.push x, .pushu x, .pop x, .popu x, .peek x]) → exec i s = .next t →
    (∀ k, t.readSlot k = s.readSlot k) ∧ t.params = s.params ∧ t.violated = s.violated ∧ t.inputs = s.inputs ∧
    t.draws = s.draws ∧ t.statusOn i.port.other = s.statusOn i.port.other ∧
    t.rdataOn i.port.other = s.rdataOn i.port.other ∧
    (isCtl i = false → t.cap = s.cap ∧ t.rd = s.rd ∧ t.wr = s.wr) ∧
    ((∀ x, i = .flush x → t.cap = s.cap) ∧ (t.statusOn i.port ≠ 0#3 → t.block = s.block))

/-- R135: PEEK assigns no state; on a non-empty buffer it returns the same element again, a PUSH on port P in between or
not; on an empty buffer each PEEK is a draw of its own (log 5). -/
def Obligations.PeekRepeatsItsAnswer : Prop :=
  (∀ s t : State, exec (.peek .C) s = .next t → t.block = s.block) ∧
  (∀ (s : State) (v : Elem) (w : Cmd), s.Inv → s.Initialized → s.Uncorrupted → s.isEmpty = false →
    w ∈ [0x0000#16, 0x3000#16, 0x4000#16, 0x5000#16, 0x6000#16, 0x8000#16] →
    ∃ (o1 o2 : CycleOut) (t : State),
      run [{ rst := false, pCmd := w, pWdata := v, cCmd := 0xC000#16 }, aloneOn .C 0xC000#16] s = some ([o1, o2], t) ∧
      o1.cStatus = 0#3 ∧ o2.cStatus = 0#3 ∧ o1.cRdata = o2.cRdata) ∧
  (∀ s : State, s.Initialized → s.isEmpty = true →
    ∃ (o1 o2 : CycleOut) (t : State),
      run [aloneOn .C 0xC000#16, aloneOn .C 0xC000#16] s = some ([o1, o2], t) ∧
      o1.cRdata = fit s.params.width (Config.freeElem s.draws) ∧
      o2.cRdata = fit s.params.width (Config.freeElem (s.draws + 1)) ∧ t.block = s.block)

/-! ## Errors -/

/-- R154: the precedence of the status codes. -/
def Obligations.StatusPrecedence : Prop :=
  ∀ (i : Instr) (s : State),
    (i.wf = false → exec i s = .next (s.respond i.port .illegal 0#32)) ∧
    (∀ x, i = .nop x → exec i s = .next (s.respond x .ok 0#32)) ∧
    (i.wf = true → inConflict i s = true → exec i s = .next (s.respond i.port .conflict 0#32)) ∧
    (i.wf = true → inConflict i s = false → s.cap = 0#8 → needsInit i = true →
      exec i s = .next (s.respond i.port .uninit 0#32)) ∧
    (i.wf = true → inConflict i s = false → (needsInit i = true → s.cap ≠ 0#8) →
      (∀ e, ownError s i = some e → exec i s = .next (s.respond i.port e 0#32)) ∧
      (s.Inv → ownError s i = none → ∃ t, exec i s = .next t ∧ t.statusOn i.port = 0#3))

/-- R155: INIT or FLUSH against an active command: both answer CONFLICT and nothing changes; against a NOP or an ILLEGAL word
there is no conflict. -/
def Obligations.ConflictStopsBothPorts : Prop :=
  (∀ (s : State) (iP iC : Instr), s.pins.rst = false →
    decode .P s.pins.pCmd = .command iP → decode .C s.pins.cCmd = .command iC →
    ((isCtl iP = true ∧ iC ≠ .nop .C) ∨ (isCtl iC = true ∧ iP ≠ .nop .P)) →
    ∃ t, step s = .next t ∧ t.pStatus = 6#3 ∧ t.pRdata = 0#32 ∧ t.cStatus = 6#3 ∧ t.cRdata = 0#32 ∧
      t.block = s.block ∧ t.draws = s.draws) ∧
  (∀ (s : State) (i : Instr), s.pins.rst = false →
    (s.decoded i.port.other = .command (.nop i.port.other) ∨ ∃ why, s.decoded i.port.other = .illegal why) →
    inConflict i s = false)

/-- R150, derived: a command whose status is not OK answers it with `rdata = 0` and changes nothing else. -/
def Obligations.ErrorsLeaveTheBlockUnchanged : Prop :=
  ∀ (i : Instr) (s t : State), exec i s = .next t → t.statusOn i.port ≠ 0#3 →
    ∃ st : Status, st ≠ .ok ∧ t = s.respond i.port st 0#32

/-- R153, R151, derived: the codes each command can return; code 7 is driven in no cycle without reset. -/
def Obligations.StatusCodesByCommand : Prop :=
  (∀ (i : Instr) (s t : State), exec i s = .next t →
    t.statusOn i.port ∈ (match i with
      | .nop _ => [0#3]
      | .init _ _ => [0#3, 1#3, 6#3]
      | .flush _ | .used _ | .free _ | .empty _ | .full _ => [0#3, 5#3, 6#3]
      | .push .P => [0#3, 2#3, 5#3, 6#3]
      | .pop .C => [0#3, 3#3, 5#3, 6#3]
      | .pushu .P | .popu .C | .peek .C => [0#3, 5#3, 6#3]
      | .push .C | .pushu .C | .pop .P | .popu .P | .peek .P => [4#3])) ∧
  (∀ s t : State, s.pins.rst = false → step s = .next t → t.pStatus ≠ 7#3 ∧ t.cStatus ≠ 7#3)

/-! ## The contract -/

/-- R160: a cycle without reset sets the flag exactly in the cases V1 to V7, and nothing clears it. (That a NOP counts among
the commands of V7 is the model's reading, log 9.) -/
def Obligations.ViolatedIsSetExactlyByTheSevenCases : Prop :=
  (∀ (s : State) (x : Port) (i : Instr), executes s x = some i ↔
    s.decoded x = .command i ∧ inConflict i s = false ∧ s.cap ≠ 0#8) ∧
  State.reset.violated = false ∧
  (∀ s t : State, step s = .next t → s.pins.rst = true → t.violated = s.violated) ∧
  (∀ s t : State, step s = .next t → s.pins.rst = false →
    (t.violated = true ↔ s.violated = true ∨
      (executes s .P = some (.pushu .P) ∧ s.usedCount = s.cap ∧
        executes s .C ≠ some (.pop .C) ∧ executes s .C ≠ some (.popu .C)) ∨
      (executes s .C = some (.popu .C) ∧ s.wr = s.rd) ∨
      (executes s .C = some (.peek .C) ∧ s.wr = s.rd) ∨
      (t.pStatus = 6#3 ∨ t.cStatus = 6#3) ∨
      (t.pStatus = 5#3 ∨ t.cStatus = 5#3) ∨
      (t.pStatus = 4#3 ∨ t.cStatus = 4#3) ∨
      (s.cap.toNat < s.usedCount.toNat ∧ (executes s .P ≠ none ∨ executes s .C ≠ none))))

/-- R99: what the two misuses of the unchecked commands leave, for one slot and for more; both answer OK. -/
def Obligations.UncheckedMisuseCorners : Prop :=
  ∀ s : State, s.Inv → s.Initialized →
    (s.otherCtl .P = false → s.isFull = true →
      ∃ t, exec (.pushu .P) s = .next t ∧ t.pStatus = 0#3 ∧
        (s.cap = 1#8 → t.isEmpty = true ∧ t.wr = s.rd ∧ t.readSlot 0 = s.pushOperand) ∧
        (s.cap ≠ 1#8 → t.usedCount.toNat = s.cap.toNat + 1 ∧ ¬ t.Uncorrupted)) ∧
    (s.otherCtl .C = false → s.isEmpty = true →
      ∃ t, exec (.popu .C) s = .next t ∧ t.cStatus = 0#3 ∧
        (s.cap = 1#8 → t.isFull = true ∧ t.rd.toNat = (s.wr.toNat + 1) % 2) ∧
        (s.cap ≠ 1#8 → t.usedCount.toNat = 2 * s.cap.toNat - 1 ∧ ¬ t.Uncorrupted))

/-- R56, derived: within contract the block is a queue. A cycle removes the oldest element for a POP or POPU that succeeds and
appends the pushed one for a PUSH or PUSHU that succeeds; the element returned is the oldest. -/
def Obligations.CycleRefinesTheQueue : Prop :=
  ∀ (s t : State) (iP iC : Instr), s.Inv → s.Initialized → s.Uncorrupted → s.pins.rst = false →
    decode .P s.pins.pCmd = .command iP → decode .C s.pins.cCmd = .command iC →
    isCtl iP = false → isCtl iC = false → step s = .next t → s.violated = false → t.violated = false →
    t.queue =
      (if iC ∈ [.pop .C, .popu .C] then s.queue.tail else s.queue) ++
      (if iP = .pushu .P ∨ (iP = .push .P ∧ s.queue.length < s.cap.toNat) then [s.pushOperand] else []) ∧
    (iC ∈ [.pop .C, .popu .C, .peek .C] → ∀ d, s.queue.head? = some d → t.cStatus = 0#3 ∧ t.cRdata = d) ∧
    (iC = .pop .C → s.queue = [] → t.cStatus = 3#3) ∧
    (iP = .push .P → s.queue.length = s.cap.toNat → t.pStatus = 2#3) ∧
    t.queue.length ≤ t.cap.toNat

/-- R182: a freshly initialized buffer takes exactly `N` pushes, refuses the next with OVERFLOW, gives the `N` elements back
in order, and refuses the next pop with UNDERFLOW. -/
def Obligations.FreshBufferHoldsExactlyItsCapacity : Prop :=
  ∀ (s : State) (vs : List Elem) (v : Elem), s.Inv → s.Initialized → s.rd = 0#8 → s.wr = 0#8 →
    vs.length = s.cap.toNat →
    (∀ k, k < vs.length → ∃ os t, run ((vs.take k).map pushCycle) s = some (os, t) ∧ t.isFull = false) ∧
    ∃ os t, run (vs.map pushCycle) s = some (os, t) ∧ (∀ o ∈ os, o.pStatus = 0#3) ∧ t.isFull = true ∧
      (∃ o u, run [pushCycle v] t = some ([o], u) ∧ o.pStatus = 2#3 ∧ u.block = t.block) ∧
      (∀ k, k < vs.length → ∃ os u, run (List.replicate k popCycle) t = some (os, u) ∧ u.isEmpty = false) ∧
      ∃ ds u, run (List.replicate vs.length popCycle) t = some (ds, u) ∧ (∀ o ∈ ds, o.cStatus = 0#3) ∧
        ds.map CycleOut.cRdata = vs.map (fit s.params.width) ∧ u.isEmpty = true ∧
        ∃ o w, run [popCycle] u = some ([o], w) ∧ o.cStatus = 3#3

/-! ## Invariants of every step -/

/-- R20, R24, R25, derived: the reset state meets the structural invariant and the contract bound. -/
def Obligations.ResetMeetsTheInvariants : Prop :=
  State.reset.Inv ∧ State.reset.ContractBound ∧ State.reset.startsRun = true

/-- R20, R24, R25, derived: every step keeps the capacity legal, the indices in range (after misuse too), and the storage in
canonical form, within its slots and within `P_WIDTH`. -/
def Obligations.StepKeepsTheInvariant : Prop :=
  ∀ s t : State, s.Inv → step s = .next t → t.Inv

/-- R98 law 1, derived: while no contract violation has been committed, `used <= N`. -/
def Obligations.StepKeepsUsedWithinCapacity : Prop :=
  ∀ s t : State, s.Inv → s.ContractBound → step s = .next t → t.ContractBound

/-- R25, R104, R171, derived: a step in which port P does not present PUSH or PUSHU, or is reset, keeps every slot. -/
def Obligations.OnlyPushesWriteStorage : Prop :=
  ∀ s t : State, step s = .next t →
    (s.pins.rst = true ∨ (s.decoded .P ≠ .command (.push .P) ∧ s.decoded .P ≠ .command (.pushu .P))) →
    ∀ k, t.readSlot k = s.readSlot k

/-- R30, R110, derived: after every step both data signals are `P_WIDTH` bits wide, and the parameters are the same. The input
list advances by one cycle (the model's form, log 1). -/
def Obligations.ResponsesFitTheElementWidth : Prop :=
  ∀ s t : State, step s = .next t →
    fit s.params.width t.pRdata = t.pRdata ∧ fit s.params.width t.cRdata = t.cRdata ∧ t.params = s.params ∧
    t.inputs = s.inputs.tail
end

