-- ==== Sys2Proof/Laws/Decode.lean ====
section
/-! SUPPORT. The command word as numbers: a word is its three fields, an encoding its opcode and immediate; and a decoded
command stands on its word's port. -/

namespace Sys2Proof

/-- A word is its fields (30_encoding.md R70). -/
theorem word_toNat (w : Cmd) : w.toNat = (opcOf w).toNat * 4096 + (rsvOf w).toNat * 256 + (imm8Of w).toNat := by
  have := w.isLt
  simp only [opcOf, rsvOf, imm8Of, BitVec.extractLsb'_toNat, Nat.shiftRight_eq_div_pow]
  omega

/-- An encoding is its opcode and immediate, the reserved field 0 (R74). -/
theorem encode_toNat (i : Instr) : (encode i).toNat = i.opc.toNat * 4096 + i.imm8.toNat := by
  have h1 := i.opc.isLt
  have h2 := i.imm8.isLt
  rw [encode, BitVec.toNat_append, BitVec.toNat_append, ← Nat.shiftLeft_add_eq_or_of_lt h2,
    ← Nat.shiftLeft_add_eq_or_of_lt (by decide : (0#4).toNat < 2 ^ 4)]
  simp [Nat.shiftLeft_eq]
  omega

/-- The opcode map puts a command on the port it is given. -/
theorem commandOf_port {x : Port} {opc : BitVec 4} {imm : Byte} {i : Instr} (h : commandOf x opc imm = .command i) :
    i.port = x := by
  unfold commandOf at h
  split at h <;> first | (injection h with h; subst h; rfl) | cases h

/-- A command decodes on the port its word stands on. -/
theorem decode_port {x : Port} {w : Cmd} {i : Instr} (h : decode x w = .command i) : i.port = x := by
  unfold decode at h
  split_ifs at h
  exact commandOf_port h

/-- The idle word is NOP (45_flush_nop.md R142). -/
@[simp] theorem decode_nop (x : Port) : decode x 0#16 = .command (.nop x) := by cases x <;> decide

end Sys2Proof
end

