-- ==== Sys2Proof/Laws/State.lean ====
section
/-! SUPPORT. One lemma per field of `State` per named update, and what the updates leave of the values read from a state. -/

namespace Sys2Proof.Machine

@[simp] theorem commit_self_left {α : Type} [DecidableEq α] (old c : α) : commit old old c = c := by simp [commit]

@[simp] theorem commit_self_right {α : Type} [DecidableEq α] (old p : α) : commit old p old = p := by
  unfold commit; split
  · exact ‹p = old›.symm
  · rfl

/-! ### `setCap` -/

@[simp] theorem State.setCap_params (s : State) (c : Byte) : (s.setCap c).params = s.params := rfl
@[simp] theorem State.setCap_cap (s : State) (c : Byte) : (s.setCap c).cap = c := rfl
@[simp] theorem State.setCap_rd (s : State) (c : Byte) : (s.setCap c).rd = s.rd := rfl
@[simp] theorem State.setCap_wr (s : State) (c : Byte) : (s.setCap c).wr = s.wr := rfl
@[simp] theorem State.setCap_mem (s : State) (c : Byte) : (s.setCap c).mem = s.mem := rfl
@[simp] theorem State.setCap_violated (s : State) (c : Byte) : (s.setCap c).violated = s.violated := rfl
@[simp] theorem State.setCap_pStatus (s : State) (c : Byte) : (s.setCap c).pStatus = s.pStatus := rfl
@[simp] theorem State.setCap_pRdata (s : State) (c : Byte) : (s.setCap c).pRdata = s.pRdata := rfl
@[simp] theorem State.setCap_cStatus (s : State) (c : Byte) : (s.setCap c).cStatus = s.cStatus := rfl
@[simp] theorem State.setCap_cRdata (s : State) (c : Byte) : (s.setCap c).cRdata = s.cRdata := rfl
@[simp] theorem State.setCap_inputs (s : State) (c : Byte) : (s.setCap c).inputs = s.inputs := rfl
@[simp] theorem State.setCap_draws (s : State) (c : Byte) : (s.setCap c).draws = s.draws := rfl

/-! ### `setRd` -/

@[simp] theorem State.setRd_params (s : State) (i : Byte) : (s.setRd i).params = s.params := rfl
@[simp] theorem State.setRd_cap (s : State) (i : Byte) : (s.setRd i).cap = s.cap := rfl
@[simp] theorem State.setRd_rd (s : State) (i : Byte) : (s.setRd i).rd = i := rfl
@[simp] theorem State.setRd_wr (s : State) (i : Byte) : (s.setRd i).wr = s.wr := rfl
@[simp] theorem State.setRd_mem (s : State) (i : Byte) : (s.setRd i).mem = s.mem := rfl
@[simp] theorem State.setRd_violated (s : State) (i : Byte) : (s.setRd i).violated = s.violated := rfl
@[simp] theorem State.setRd_pStatus (s : State) (i : Byte) : (s.setRd i).pStatus = s.pStatus := rfl
@[simp] theorem State.setRd_pRdata (s : State) (i : Byte) : (s.setRd i).pRdata = s.pRdata := rfl
@[simp] theorem State.setRd_cStatus (s : State) (i : Byte) : (s.setRd i).cStatus = s.cStatus := rfl
@[simp] theorem State.setRd_cRdata (s : State) (i : Byte) : (s.setRd i).cRdata = s.cRdata := rfl
@[simp] theorem State.setRd_inputs (s : State) (i : Byte) : (s.setRd i).inputs = s.inputs := rfl
@[simp] theorem State.setRd_draws (s : State) (i : Byte) : (s.setRd i).draws = s.draws := rfl

/-! ### `setWr` -/

@[simp] theorem State.setWr_params (s : State) (i : Byte) : (s.setWr i).params = s.params := rfl
@[simp] theorem State.setWr_cap (s : State) (i : Byte) : (s.setWr i).cap = s.cap := rfl
@[simp] theorem State.setWr_rd (s : State) (i : Byte) : (s.setWr i).rd = s.rd := rfl
@[simp] theorem State.setWr_wr (s : State) (i : Byte) : (s.setWr i).wr = i := rfl
@[simp] theorem State.setWr_mem (s : State) (i : Byte) : (s.setWr i).mem = s.mem := rfl
@[simp] theorem State.setWr_violated (s : State) (i : Byte) : (s.setWr i).violated = s.violated := rfl
@[simp] theorem State.setWr_pStatus (s : State) (i : Byte) : (s.setWr i).pStatus = s.pStatus := rfl
@[simp] theorem State.setWr_pRdata (s : State) (i : Byte) : (s.setWr i).pRdata = s.pRdata := rfl
@[simp] theorem State.setWr_cStatus (s : State) (i : Byte) : (s.setWr i).cStatus = s.cStatus := rfl
@[simp] theorem State.setWr_cRdata (s : State) (i : Byte) : (s.setWr i).cRdata = s.cRdata := rfl
@[simp] theorem State.setWr_inputs (s : State) (i : Byte) : (s.setWr i).inputs = s.inputs := rfl
@[simp] theorem State.setWr_draws (s : State) (i : Byte) : (s.setWr i).draws = s.draws := rfl

/-! ### `zeroIndices` -/

@[simp] theorem State.zeroIndices_params (s : State) : (s.zeroIndices).params = s.params := rfl
@[simp] theorem State.zeroIndices_cap (s : State) : (s.zeroIndices).cap = s.cap := rfl
@[simp] theorem State.zeroIndices_rd (s : State) : (s.zeroIndices).rd = 0#8 := rfl
@[simp] theorem State.zeroIndices_wr (s : State) : (s.zeroIndices).wr = 0#8 := rfl
@[simp] theorem State.zeroIndices_mem (s : State) : (s.zeroIndices).mem = s.mem := rfl
@[simp] theorem State.zeroIndices_violated (s : State) : (s.zeroIndices).violated = s.violated := rfl
@[simp] theorem State.zeroIndices_pStatus (s : State) : (s.zeroIndices).pStatus = s.pStatus := rfl
@[simp] theorem State.zeroIndices_pRdata (s : State) : (s.zeroIndices).pRdata = s.pRdata := rfl
@[simp] theorem State.zeroIndices_cStatus (s : State) : (s.zeroIndices).cStatus = s.cStatus := rfl
@[simp] theorem State.zeroIndices_cRdata (s : State) : (s.zeroIndices).cRdata = s.cRdata := rfl
@[simp] theorem State.zeroIndices_inputs (s : State) : (s.zeroIndices).inputs = s.inputs := rfl
@[simp] theorem State.zeroIndices_draws (s : State) : (s.zeroIndices).draws = s.draws := rfl

/-! ### `advanceRd` -/

@[simp] theorem State.advanceRd_params (s : State) : (s.advanceRd).params = s.params := rfl
@[simp] theorem State.advanceRd_cap (s : State) : (s.advanceRd).cap = s.cap := rfl
@[simp] theorem State.advanceRd_rd (s : State) : (s.advanceRd).rd = nextIndex s.cap s.rd := rfl
@[simp] theorem State.advanceRd_wr (s : State) : (s.advanceRd).wr = s.wr := rfl
@[simp] theorem State.advanceRd_mem (s : State) : (s.advanceRd).mem = s.mem := rfl
@[simp] theorem State.advanceRd_violated (s : State) : (s.advanceRd).violated = s.violated := rfl
@[simp] theorem State.advanceRd_pStatus (s : State) : (s.advanceRd).pStatus = s.pStatus := rfl
@[simp] theorem State.advanceRd_pRdata (s : State) : (s.advanceRd).pRdata = s.pRdata := rfl
@[simp] theorem State.advanceRd_cStatus (s : State) : (s.advanceRd).cStatus = s.cStatus := rfl
@[simp] theorem State.advanceRd_cRdata (s : State) : (s.advanceRd).cRdata = s.cRdata := rfl
@[simp] theorem State.advanceRd_inputs (s : State) : (s.advanceRd).inputs = s.inputs := rfl
@[simp] theorem State.advanceRd_draws (s : State) : (s.advanceRd).draws = s.draws := rfl

/-! ### `advanceWr` -/

@[simp] theorem State.advanceWr_params (s : State) : (s.advanceWr).params = s.params := rfl
@[simp] theorem State.advanceWr_cap (s : State) : (s.advanceWr).cap = s.cap := rfl
@[simp] theorem State.advanceWr_rd (s : State) : (s.advanceWr).rd = s.rd := rfl
@[simp] theorem State.advanceWr_wr (s : State) : (s.advanceWr).wr = nextIndex s.cap s.wr := rfl
@[simp] theorem State.advanceWr_mem (s : State) : (s.advanceWr).mem = s.mem := rfl
@[simp] theorem State.advanceWr_violated (s : State) : (s.advanceWr).violated = s.violated := rfl
@[simp] theorem State.advanceWr_pStatus (s : State) : (s.advanceWr).pStatus = s.pStatus := rfl
@[simp] theorem State.advanceWr_pRdata (s : State) : (s.advanceWr).pRdata = s.pRdata := rfl
@[simp] theorem State.advanceWr_cStatus (s : State) : (s.advanceWr).cStatus = s.cStatus := rfl
@[simp] theorem State.advanceWr_cRdata (s : State) : (s.advanceWr).cRdata = s.cRdata := rfl
@[simp] theorem State.advanceWr_inputs (s : State) : (s.advanceWr).inputs = s.inputs := rfl
@[simp] theorem State.advanceWr_draws (s : State) : (s.advanceWr).draws = s.draws := rfl

/-! ### `countDraw` -/

@[simp] theorem State.countDraw_params (s : State) : (s.countDraw).params = s.params := rfl
@[simp] theorem State.countDraw_cap (s : State) : (s.countDraw).cap = s.cap := rfl
@[simp] theorem State.countDraw_rd (s : State) : (s.countDraw).rd = s.rd := rfl
@[simp] theorem State.countDraw_wr (s : State) : (s.countDraw).wr = s.wr := rfl
@[simp] theorem State.countDraw_mem (s : State) : (s.countDraw).mem = s.mem := rfl
@[simp] theorem State.countDraw_violated (s : State) : (s.countDraw).violated = s.violated := rfl
@[simp] theorem State.countDraw_pStatus (s : State) : (s.countDraw).pStatus = s.pStatus := rfl
@[simp] theorem State.countDraw_pRdata (s : State) : (s.countDraw).pRdata = s.pRdata := rfl
@[simp] theorem State.countDraw_cStatus (s : State) : (s.countDraw).cStatus = s.cStatus := rfl
@[simp] theorem State.countDraw_cRdata (s : State) : (s.countDraw).cRdata = s.cRdata := rfl
@[simp] theorem State.countDraw_inputs (s : State) : (s.countDraw).inputs = s.inputs := rfl
@[simp] theorem State.countDraw_draws (s : State) : (s.countDraw).draws = s.draws + 1 := rfl

/-! ### `writeSlot` -/

@[simp] theorem State.writeSlot_params (s : State) (k : Nat) (v : Elem) : (s.writeSlot k v).params = s.params := rfl
@[simp] theorem State.writeSlot_cap (s : State) (k : Nat) (v : Elem) : (s.writeSlot k v).cap = s.cap := rfl
@[simp] theorem State.writeSlot_rd (s : State) (k : Nat) (v : Elem) : (s.writeSlot k v).rd = s.rd := rfl
@[simp] theorem State.writeSlot_wr (s : State) (k : Nat) (v : Elem) : (s.writeSlot k v).wr = s.wr := rfl
@[simp] theorem State.writeSlot_mem (s : State) (k : Nat) (v : Elem) : (s.writeSlot k v).mem = s.mem.write k v := rfl
@[simp] theorem State.writeSlot_violated (s : State) (k : Nat) (v : Elem) : (s.writeSlot k v).violated = s.violated := rfl
@[simp] theorem State.writeSlot_pStatus (s : State) (k : Nat) (v : Elem) : (s.writeSlot k v).pStatus = s.pStatus := rfl
@[simp] theorem State.writeSlot_pRdata (s : State) (k : Nat) (v : Elem) : (s.writeSlot k v).pRdata = s.pRdata := rfl
@[simp] theorem State.writeSlot_cStatus (s : State) (k : Nat) (v : Elem) : (s.writeSlot k v).cStatus = s.cStatus := rfl
@[simp] theorem State.writeSlot_cRdata (s : State) (k : Nat) (v : Elem) : (s.writeSlot k v).cRdata = s.cRdata := rfl
@[simp] theorem State.writeSlot_inputs (s : State) (k : Nat) (v : Elem) : (s.writeSlot k v).inputs = s.inputs := rfl
@[simp] theorem State.writeSlot_draws (s : State) (k : Nat) (v : Elem) : (s.writeSlot k v).draws = s.draws := rfl

/-! ### `resetBlock` -/

@[simp] theorem State.resetBlock_params (s : State) : (s.resetBlock).params = s.params := rfl
@[simp] theorem State.resetBlock_cap (s : State) : (s.resetBlock).cap = 0#8 := rfl
@[simp] theorem State.resetBlock_rd (s : State) : (s.resetBlock).rd = 0#8 := rfl
@[simp] theorem State.resetBlock_wr (s : State) : (s.resetBlock).wr = 0#8 := rfl
@[simp] theorem State.resetBlock_mem (s : State) : (s.resetBlock).mem = s.mem := rfl
@[simp] theorem State.resetBlock_violated (s : State) : (s.resetBlock).violated = s.violated := rfl
@[simp] theorem State.resetBlock_pStatus (s : State) : (s.resetBlock).pStatus = Config.freeStatus s.draws := rfl
@[simp] theorem State.resetBlock_pRdata (s : State) : (s.resetBlock).pRdata = fit s.params.width (Config.freeElem s.draws) := rfl
@[simp] theorem State.resetBlock_cStatus (s : State) : (s.resetBlock).cStatus = Config.freeStatus (s.draws + 1) := rfl
@[simp] theorem State.resetBlock_cRdata (s : State) : (s.resetBlock).cRdata = fit s.params.width (Config.freeElem (s.draws + 1)) := rfl
@[simp] theorem State.resetBlock_inputs (s : State) : (s.resetBlock).inputs = s.inputs := rfl
@[simp] theorem State.resetBlock_draws (s : State) : (s.resetBlock).draws = s.draws + 2 := rfl

/-! ### `nextInputs` -/

@[simp] theorem State.nextInputs_params (s : State) : (s.nextInputs).params = s.params := rfl
@[simp] theorem State.nextInputs_cap (s : State) : (s.nextInputs).cap = s.cap := rfl
@[simp] theorem State.nextInputs_rd (s : State) : (s.nextInputs).rd = s.rd := rfl
@[simp] theorem State.nextInputs_wr (s : State) : (s.nextInputs).wr = s.wr := rfl
@[simp] theorem State.nextInputs_mem (s : State) : (s.nextInputs).mem = s.mem := rfl
@[simp] theorem State.nextInputs_violated (s : State) : (s.nextInputs).violated = s.violated := rfl
@[simp] theorem State.nextInputs_pStatus (s : State) : (s.nextInputs).pStatus = s.pStatus := rfl
@[simp] theorem State.nextInputs_pRdata (s : State) : (s.nextInputs).pRdata = s.pRdata := rfl
@[simp] theorem State.nextInputs_cStatus (s : State) : (s.nextInputs).cStatus = s.cStatus := rfl
@[simp] theorem State.nextInputs_cRdata (s : State) : (s.nextInputs).cRdata = s.cRdata := rfl
@[simp] theorem State.nextInputs_inputs (s : State) : (s.nextInputs).inputs = s.inputs.tail := rfl
@[simp] theorem State.nextInputs_draws (s : State) : (s.nextInputs).draws = s.draws := rfl

/-! ### `recordViolations` -/

@[simp] theorem State.recordViolations_params (s t : State) : (s.recordViolations t).params = t.params := rfl
@[simp] theorem State.recordViolations_cap (s t : State) : (s.recordViolations t).cap = t.cap := rfl
@[simp] theorem State.recordViolations_rd (s t : State) : (s.recordViolations t).rd = t.rd := rfl
@[simp] theorem State.recordViolations_wr (s t : State) : (s.recordViolations t).wr = t.wr := rfl
@[simp] theorem State.recordViolations_mem (s t : State) : (s.recordViolations t).mem = t.mem := rfl
@[simp] theorem State.recordViolations_violated (s t : State) : (s.recordViolations t).violated = (s.violated || !(violations s t).isEmpty) := rfl
@[simp] theorem State.recordViolations_pStatus (s t : State) : (s.recordViolations t).pStatus = t.pStatus := rfl
@[simp] theorem State.recordViolations_pRdata (s t : State) : (s.recordViolations t).pRdata = t.pRdata := rfl
@[simp] theorem State.recordViolations_cStatus (s t : State) : (s.recordViolations t).cStatus = t.cStatus := rfl
@[simp] theorem State.recordViolations_cRdata (s t : State) : (s.recordViolations t).cRdata = t.cRdata := rfl
@[simp] theorem State.recordViolations_inputs (s t : State) : (s.recordViolations t).inputs = t.inputs := rfl
@[simp] theorem State.recordViolations_draws (s t : State) : (s.recordViolations t).draws = t.draws := rfl

/-! ### `joinPorts` -/

@[simp] theorem joinPorts_params (s p c : State) : (joinPorts s p c).params = s.params := rfl
@[simp] theorem joinPorts_cap (s p c : State) : (joinPorts s p c).cap = commit s.cap p.cap c.cap := rfl
@[simp] theorem joinPorts_rd (s p c : State) : (joinPorts s p c).rd = commit s.rd p.rd c.rd := rfl
@[simp] theorem joinPorts_wr (s p c : State) : (joinPorts s p c).wr = commit s.wr p.wr c.wr := rfl
@[simp] theorem joinPorts_mem (s p c : State) : (joinPorts s p c).mem = commit s.mem p.mem c.mem := rfl
@[simp] theorem joinPorts_violated (s p c : State) : (joinPorts s p c).violated = s.violated := rfl
@[simp] theorem joinPorts_pStatus (s p c : State) : (joinPorts s p c).pStatus = p.pStatus := rfl
@[simp] theorem joinPorts_pRdata (s p c : State) : (joinPorts s p c).pRdata = p.pRdata := rfl
@[simp] theorem joinPorts_cStatus (s p c : State) : (joinPorts s p c).cStatus = c.cStatus := rfl
@[simp] theorem joinPorts_cRdata (s p c : State) : (joinPorts s p c).cRdata = c.cRdata := rfl
@[simp] theorem joinPorts_inputs (s p c : State) : (joinPorts s p c).inputs = s.inputs := rfl
@[simp] theorem joinPorts_draws (s p c : State) : (joinPorts s p c).draws = commit s.draws p.draws c.draws := rfl

/-! ### `respond` and `raiseError` -/

@[simp] theorem State.respond_params (s : State) (x : Port) (st : Status) (d : Elem) : (s.respond x st d).params = s.params := by
  cases x <;> rfl
@[simp] theorem State.respond_cap (s : State) (x : Port) (st : Status) (d : Elem) : (s.respond x st d).cap = s.cap := by
  cases x <;> rfl
@[simp] theorem State.respond_rd (s : State) (x : Port) (st : Status) (d : Elem) : (s.respond x st d).rd = s.rd := by
  cases x <;> rfl
@[simp] theorem State.respond_wr (s : State) (x : Port) (st : Status) (d : Elem) : (s.respond x st d).wr = s.wr := by
  cases x <;> rfl
@[simp] theorem State.respond_mem (s : State) (x : Port) (st : Status) (d : Elem) : (s.respond x st d).mem = s.mem := by
  cases x <;> rfl
@[simp] theorem State.respond_violated (s : State) (x : Port) (st : Status) (d : Elem) : (s.respond x st d).violated = s.violated := by
  cases x <;> rfl
@[simp] theorem State.respond_inputs (s : State) (x : Port) (st : Status) (d : Elem) : (s.respond x st d).inputs = s.inputs := by
  cases x <;> rfl
@[simp] theorem State.respond_draws (s : State) (x : Port) (st : Status) (d : Elem) : (s.respond x st d).draws = s.draws := by
  cases x <;> rfl
@[simp] theorem State.respond_P_pStatus (s : State) (st : Status) (d : Elem) : (s.respond .P st d).pStatus = st.code := rfl
@[simp] theorem State.respond_P_pRdata (s : State) (st : Status) (d : Elem) : (s.respond .P st d).pRdata = d := rfl
@[simp] theorem State.respond_P_cStatus (s : State) (st : Status) (d : Elem) : (s.respond .P st d).cStatus = s.cStatus := rfl
@[simp] theorem State.respond_P_cRdata (s : State) (st : Status) (d : Elem) : (s.respond .P st d).cRdata = s.cRdata := rfl
@[simp] theorem State.respond_C_pStatus (s : State) (st : Status) (d : Elem) : (s.respond .C st d).pStatus = s.pStatus := rfl
@[simp] theorem State.respond_C_pRdata (s : State) (st : Status) (d : Elem) : (s.respond .C st d).pRdata = s.pRdata := rfl
@[simp] theorem State.respond_C_cStatus (s : State) (st : Status) (d : Elem) : (s.respond .C st d).cStatus = st.code := rfl
@[simp] theorem State.respond_C_cRdata (s : State) (st : Status) (d : Elem) : (s.respond .C st d).cRdata = d := rfl
@[simp] theorem State.raiseError_eq (s : State) (x : Port) (st : Status) : s.raiseError x st = s.respond x st 0#32 := rfl

/-! ### Values read from an updated state -/

@[simp] theorem State.respond_pins (s : State) (x : Port) (st : Status) (d : Elem) : (s.respond x st d).pins = s.pins := by
  cases x <;> rfl
@[simp] theorem State.respond_usedCount (s : State) (x : Port) (st : Status) (d : Elem) :
    (s.respond x st d).usedCount = s.usedCount := by cases x <;> rfl
@[simp] theorem State.respond_freeCount (s : State) (x : Port) (st : Status) (d : Elem) :
    (s.respond x st d).freeCount = s.freeCount := by cases x <;> rfl
@[simp] theorem State.respond_isEmpty (s : State) (x : Port) (st : Status) (d : Elem) :
    (s.respond x st d).isEmpty = s.isEmpty := by cases x <;> rfl
@[simp] theorem State.respond_isFull (s : State) (x : Port) (st : Status) (d : Elem) :
    (s.respond x st d).isFull = s.isFull := by cases x <;> rfl
@[simp] theorem State.respond_readSlot (s : State) (x : Port) (st : Status) (d : Elem) (k : Nat) :
    (s.respond x st d).readSlot k = s.readSlot k := by cases x <;> rfl

/-- Both fields of the other port keep their values. -/
theorem State.respond_other (s : State) (x : Port) (st : Status) (d : Elem) :
    match x with
    | .P => (s.respond x st d).cStatus = s.cStatus ∧ (s.respond x st d).cRdata = s.cRdata
    | .C => (s.respond x st d).pStatus = s.pStatus ∧ (s.respond x st d).pRdata = s.pRdata := by
  cases x <;> exact ⟨rfl, rfl⟩

end Sys2Proof.Machine
end

