-- ==== Sys2Proof/Laws/Flags.lean ====
section
/-! SUPPORT. The two combinational sub-blocks as arithmetic: masks, index advance, slot selection and occupancy over
natural numbers (40_index_occupancy.md). -/

namespace Sys2Proof.Machine

theorem isPow2_cases {c : Byte} (h : isPow2 c = true) :
    c = 1#8 ∨ c = 2#8 ∨ c = 4#8 ∨ c = 8#8 ∨ c = 16#8 ∨ c = 32#8 ∨ c = 64#8 ∨ c = 128#8 := by
  revert h; revert c; decide

/-- A valid capacity is one of the eight powers of two, and within the storage (41_init.md R100). -/
theorem validCap_cases {p : Params} {c : Byte} (h : validCap p c = true) :
    (c = 1#8 ∨ c = 2#8 ∨ c = 4#8 ∨ c = 8#8 ∨ c = 16#8 ∨ c = 32#8 ∨ c = 64#8 ∨ c = 128#8) ∧ c.toNat ≤ p.maxCap := by
  simp only [validCap, Bool.and_eq_true, decide_eq_true_eq] at h
  exact ⟨isPow2_cases h.1, h.2⟩

theorem validCap_ne_zero {p : Params} {c : Byte} (h : validCap p c = true) : c ≠ 0#8 := by
  rintro rfl; simp [validCap, isPow2] at h

theorem and_mask_toNat {p : Params} {c : Byte} (x : Byte) (h : validCap p c = true) :
    (x &&& maskOf c).toNat = x.toNat % (2 * c.toNat) := by
  obtain ⟨hc | hc | hc | hc | hc | hc | hc | hc, -⟩ := validCap_cases h <;> subst hc <;>
    rw [BitVec.toNat_and]
  · exact Nat.and_two_pow_sub_one_eq_mod x.toNat 1
  · exact Nat.and_two_pow_sub_one_eq_mod x.toNat 2
  · exact Nat.and_two_pow_sub_one_eq_mod x.toNat 3
  · exact Nat.and_two_pow_sub_one_eq_mod x.toNat 4
  · exact Nat.and_two_pow_sub_one_eq_mod x.toNat 5
  · exact Nat.and_two_pow_sub_one_eq_mod x.toNat 6
  · exact Nat.and_two_pow_sub_one_eq_mod x.toNat 7
  · exact Nat.and_two_pow_sub_one_eq_mod x.toNat 8

/-- R92: the slot is the index modulo the capacity. -/
theorem slotOf_toNat {p : Params} {c : Byte} (x : Byte) (h : validCap p c = true) :
    (slotOf c x).toNat = x.toNat % c.toNat := by
  obtain ⟨hc | hc | hc | hc | hc | hc | hc | hc, -⟩ := validCap_cases h <;> subst hc <;>
    rw [slotOf, BitVec.toNat_and]
  · exact Nat.and_two_pow_sub_one_eq_mod x.toNat 0
  · exact Nat.and_two_pow_sub_one_eq_mod x.toNat 1
  · exact Nat.and_two_pow_sub_one_eq_mod x.toNat 2
  · exact Nat.and_two_pow_sub_one_eq_mod x.toNat 3
  · exact Nat.and_two_pow_sub_one_eq_mod x.toNat 4
  · exact Nat.and_two_pow_sub_one_eq_mod x.toNat 5
  · exact Nat.and_two_pow_sub_one_eq_mod x.toNat 6
  · exact Nat.and_two_pow_sub_one_eq_mod x.toNat 7

theorem cap_pos {p : Params} {c : Byte} (h : validCap p c = true) : 0 < c.toNat := by
  obtain ⟨hc | hc | hc | hc | hc | hc | hc | hc, -⟩ := validCap_cases h <;> subst hc <;> decide

theorem cap_le {p : Params} {c : Byte} (h : validCap p c = true) : c.toNat ≤ 128 := by
  obtain ⟨hc | hc | hc | hc | hc | hc | hc | hc, -⟩ := validCap_cases h <;> subst hc <;> decide

/-- `2N` divides 256 (R93). -/
theorem two_cap_dvd {p : Params} {c : Byte} (h : validCap p c = true) : 2 * c.toNat ∣ 256 := by
  obtain ⟨hc | hc | hc | hc | hc | hc | hc | hc, -⟩ := validCap_cases h <;> subst hc <;> decide

/-- A valid capacity's slot exists (R51): an access never leaves the storage. -/
theorem slotOf_lt_maxCap {p : Params} {c : Byte} (x : Byte) (h : validCap p c = true) :
    (slotOf c x).toNat < p.maxCap := by
  rw [slotOf_toNat x h]
  exact lt_of_lt_of_le (Nat.mod_lt _ (cap_pos h)) (validCap_cases h).2

/-- R91: the advance is `+ 1` modulo `2N`. -/
theorem nextIndex_toNat {p : Params} {c : Byte} (x : Byte) (h : validCap p c = true) :
    (nextIndex c x).toNat = (x.toNat + 1) % (2 * c.toNat) := by
  rw [nextIndex, and_mask_toNat _ h, BitVec.toNat_add]
  exact Nat.mod_mod_of_dvd _ (two_cap_dvd h)

theorem nextIndex_lt {p : Params} {c : Byte} (x : Byte) (h : validCap p c = true) :
    (nextIndex c x).toNat < 2 * c.toNat := by
  rw [nextIndex_toNat x h]; exact Nat.mod_lt _ (by have := cap_pos h; omega)

/-- R93: the used count is the index difference modulo `2N`. -/
theorem usedCount_toNat {s : State} (h : validCap s.params s.cap = true) :
    s.usedCount.toNat = (s.wr.toNat + (256 - s.rd.toNat)) % (2 * s.cap.toNat) := by
  rw [State.usedCount, and_mask_toNat _ h, BitVec.toNat_sub, Nat.mod_mod_of_dvd _ (two_cap_dvd h)]
  congr 1; omega

/-- R93 for indices in range, without a modulus. -/
theorem usedCount_eq {s : State} (h : validCap s.params s.cap = true) (hr : s.rd.toNat < 2 * s.cap.toNat)
    (hw : s.wr.toNat < 2 * s.cap.toNat) :
    s.usedCount.toNat =
      if s.rd.toNat ≤ s.wr.toNat then s.wr.toNat - s.rd.toNat else 2 * s.cap.toNat + s.wr.toNat - s.rd.toNat := by
  rw [usedCount_toNat h]
  obtain ⟨k, hk⟩ := two_cap_dvd h
  have h1 := s.rd.isLt
  have hk1 : 1 ≤ k := by
    rcases Nat.eq_zero_or_pos k with h0 | h0
    · subst h0; simp at hk
    · exact h0
  split
  · rw [show s.wr.toNat + (256 - s.rd.toNat) = (s.wr.toNat - s.rd.toNat) + 2 * s.cap.toNat * k by omega,
      Nat.add_mul_mod_self_left, Nat.mod_eq_of_lt (by omega)]
  · obtain ⟨j, rfl⟩ := Nat.exists_eq_add_of_le' hk1
    have hj : 2 * s.cap.toNat * (j + 1) = 2 * s.cap.toNat * j + 2 * s.cap.toNat := by ring
    rw [show s.wr.toNat + (256 - s.rd.toNat) = (2 * s.cap.toNat + s.wr.toNat - s.rd.toNat) + 2 * s.cap.toNat * j by omega,
      Nat.add_mul_mod_self_left, Nat.mod_eq_of_lt (by omega)]

theorem usedCount_lt {s : State} (h : validCap s.params s.cap = true) : s.usedCount.toNat < 2 * s.cap.toNat := by
  rw [usedCount_toNat h]; exact Nat.mod_lt _ (by have := cap_pos h; omega)

/-- In an initialized state that meets the invariant the capacity is valid. -/
theorem State.Inv.valid {s : State} (h : s.Inv) (hc : s.Initialized) : validCap s.params s.cap = true := by
  rcases h.1 with h0 | h0
  · exact absurd h0 hc
  · exact h0

theorem State.isEmpty_iff (s : State) : s.isEmpty = true ↔ s.wr = s.rd := by simp [State.isEmpty]

theorem State.isFull_iff (s : State) : s.isFull = true ↔ s.usedCount = s.cap := by simp [State.isFull]

theorem State.isFull_iff_toNat (s : State) : s.isFull = true ↔ s.usedCount.toNat = s.cap.toNat := by
  rw [State.isFull_iff, BitVec.toNat_inj]

/-- R95: with indices in range, empty exactly when nothing is used. -/
theorem State.isEmpty_iff_used {s : State} (h : s.Inv) (hc : s.Initialized) :
    s.isEmpty = true ↔ s.usedCount.toNat = 0 := by
  obtain ⟨hr, hw⟩ := h.2.1.2 hc
  rw [State.isEmpty_iff, ← BitVec.toNat_inj, usedCount_eq (h.valid hc) hr hw]
  split <;> omega

end Sys2Proof.Machine
end

