-- ==== Sys2Proof/Laws/Memory.lean ====
section
/-! SUPPORT. The slot storage: read after write, the canonical form and its preservation by every memory operation. -/

namespace Sys2Proof.Machine

theorem Memory.lookup_write_same (m : Memory) (k : Nat) (v : Elem) : (m.write k v).lookup k = some v := by
  induction m with
  | nil => simp [Memory.write, Memory.lookup]
  | cons c m ih =>
    obtain ⟨a, w⟩ := c
    simp only [Memory.write]
    split
    · simp [Memory.lookup]
    · split
      · simp [Memory.lookup]
      · simp only [Memory.lookup]
        rw [if_neg (by omega), ih]

theorem Memory.lookup_write_other (m : Memory) {k j : Nat} (v : Elem) (h : j ≠ k) :
    (m.write k v).lookup j = m.lookup j := by
  induction m with
  | nil => simp [Memory.write, Memory.lookup, Ne.symm h]
  | cons c m ih =>
    obtain ⟨a, w⟩ := c
    simp only [Memory.write]
    split
    · simp [Memory.lookup, Ne.symm h]
    · split
      · subst_vars; simp [Memory.lookup, Ne.symm h]
      · simp only [Memory.lookup, ih]

theorem Memory.above_write {a k : Nat} {m : Memory} (v : Elem) (hm : m.above a = true) (hk : a < k) :
    (m.write k v).above a = true := by
  induction m with
  | nil => simp [Memory.write, Memory.above, hk]
  | cons c m ih =>
    obtain ⟨b, w⟩ := c
    simp only [Memory.above, List.all_cons, Bool.and_eq_true, decide_eq_true_eq] at hm ih ⊢
    simp only [Memory.write]
    split
    · simp only [List.all_cons, Bool.and_eq_true, decide_eq_true_eq]; exact ⟨hk, hm⟩
    · split
      · simp only [List.all_cons, Bool.and_eq_true, decide_eq_true_eq]; exact ⟨hk, hm.2⟩
      · simp only [List.all_cons, Bool.and_eq_true, decide_eq_true_eq]; exact ⟨hm.1, ih hm.2⟩

theorem Memory.above_mono {a b : Nat} {m : Memory} (hm : m.above b = true) (h : a ≤ b) : m.above a = true := by
  simp only [Memory.above, List.all_eq_true, decide_eq_true_eq] at hm ⊢
  exact fun c hc => lt_of_le_of_lt h (hm c hc)

/-- A write keeps the canonical form. -/
theorem Memory.write_wf {m : Memory} (k : Nat) (v : Elem) (hm : m.wf = true) : (m.write k v).wf = true := by
  induction m with
  | nil => simp [Memory.write, Memory.wf, Memory.above]
  | cons c m ih =>
    obtain ⟨a, w⟩ := c
    simp only [Memory.wf, Bool.and_eq_true] at hm
    simp only [Memory.write]
    split
    · next h =>
      simp only [Memory.wf, Memory.above, List.all_cons, Bool.and_eq_true, decide_eq_true_eq]
      exact ⟨⟨h, Memory.above_mono hm.1 (by omega)⟩, hm.1, hm.2⟩
    · split
      · next h => subst h; simp only [Memory.wf, Bool.and_eq_true]; exact hm
      · next h h' =>
        simp only [Memory.wf, Bool.and_eq_true]
        exact ⟨Memory.above_write v hm.1 (by omega), ih hm.2⟩

/-- A write of a slot that exists, with an element that fits, keeps every entry one. -/
theorem Memory.write_inStorage {p : Params} {m : Memory} {k : Nat} {v : Elem} (hm : m.inStorage p = true)
    (hk : k < p.maxCap) (hv : fit p.width v = v) : (m.write k v).inStorage p = true := by
  induction m with
  | nil => simp [Memory.write, Memory.inStorage, hk, hv]
  | cons c m ih =>
    obtain ⟨a, w⟩ := c
    simp only [Memory.inStorage, List.all_cons, Bool.and_eq_true, decide_eq_true_eq, beq_iff_eq] at hm ih ⊢
    simp only [Memory.write]
    split
    · simp only [List.all_cons, Bool.and_eq_true, decide_eq_true_eq, beq_iff_eq]; exact ⟨⟨hk, hv⟩, hm⟩
    · split
      · simp only [List.all_cons, Bool.and_eq_true, decide_eq_true_eq, beq_iff_eq]; exact ⟨⟨hk, hv⟩, hm.2⟩
      · simp only [List.all_cons, Bool.and_eq_true, decide_eq_true_eq, beq_iff_eq]; exact ⟨hm.1, ih hm.2⟩

/-- The reset state's storage is in canonical form. -/
theorem reset_mem_wf : State.reset.mem.wf = true := rfl

/-! ### Elements of `P_WIDTH` bits -/

theorem fit_toNat (w : Width) (v : Elem) : (fit w v).toNat = v.toNat % 2 ^ w.bits := by
  have hv := v.isLt
  cases w <;> simp only [fit, Width.bits, BitVec.toNat_setWidth] <;> omega

@[simp] theorem fit_fit (w : Width) (v : Elem) : fit w (fit w v) = fit w v := by
  apply BitVec.eq_of_toNat_eq; simp [fit_toNat]

/-- An 8-bit value fits every width (00_scope.md R9: `P_WIDTH >= 8`). -/
theorem fit_of_lt {w : Width} {v : Elem} (h : v.toNat < 256) : fit w v = v := by
  apply BitVec.eq_of_toNat_eq
  rw [fit_toNat, Nat.mod_eq_of_lt]
  cases w <;> simp only [Width.bits] <;> omega

@[simp] theorem fit_readSlot (s : State) (k : Nat) : fit s.params.width (s.readSlot k) = s.readSlot k := fit_fit _ _

@[simp] theorem fit_pushOperand (s : State) : fit s.params.width s.pushOperand = s.pushOperand := fit_fit _ _

@[simp] theorem fit_drawnElem (s : State) : fit s.params.width s.drawnElem = s.drawnElem := fit_fit _ _

@[simp] theorem fit_zextCount (w : Width) (b : Byte) : fit w (zextCount b) = zextCount b := by
  apply fit_of_lt
  have := b.isLt
  simp [zextCount, BitVec.toNat_setWidth]; omega

@[simp] theorem fit_zextBool (w : Width) (b : Bool) : fit w (zextBool b) = zextBool b := by
  apply fit_of_lt; cases b <;> decide

@[simp] theorem fit_zero (w : Width) : fit w 0#32 = 0#32 := fit_of_lt (by decide)

/-! ### Reading a slot of a state -/

theorem State.readSlot_writeSlot_same (s : State) (k : Nat) (v : Elem) :
    (s.writeSlot k v).readSlot k = fit s.params.width v := by
  simp [State.readSlot, Memory.lookup_write_same]

theorem State.readSlot_writeSlot_other (s : State) {k j : Nat} (v : Elem) (h : j ≠ k) :
    (s.writeSlot k v).readSlot j = s.readSlot j := by
  simp [State.readSlot, Memory.lookup_write_other _ _ h]

/-- Two states with one instance's storage read alike. -/
theorem State.readSlot_congr {s t : State} (hp : t.params = s.params) (hm : t.mem = s.mem) (k : Nat) :
    t.readSlot k = s.readSlot k := by simp [State.readSlot, hp, hm]

end Sys2Proof.Machine
end

