-- ==== Sys2Proof/Laws/Exec.lean ====
section
/-! SUPPORT. Everything the shared operations and `exec` can do, said once: later proofs cite `exec_does` instead of
unfolding the meanings. -/

namespace Sys2Proof.Machine

/-! ### Shared operations -/

@[simp] theorem Port.other_other (x : Port) : x.other.other = x := by cases x <;> rfl

@[simp] theorem State.statusOn_respond (s : State) (x : Port) (st : Status) (d : Elem) :
    (s.respond x st d).statusOn x = st.code := by cases x <;> rfl

@[simp] theorem State.rdataOn_respond (s : State) (x : Port) (st : Status) (d : Elem) :
    (s.respond x st d).rdataOn x = d := by cases x <;> rfl

@[simp] theorem State.statusOn_respond_other (s : State) (x : Port) (st : Status) (d : Elem) :
    (s.respond x st d).statusOn x.other = s.statusOn x.other := by cases x <;> rfl

@[simp] theorem State.rdataOn_respond_other (s : State) (x : Port) (st : Status) (d : Elem) :
    (s.respond x st d).rdataOn x.other = s.rdataOn x.other := by cases x <;> rfl

@[simp] theorem Status.code_eq_zero (st : Status) : st.code = 0#3 ↔ st = .ok := by cases st <;> decide

theorem Status.code_ne_seven (st : Status) : st.code ≠ 7#3 := by cases st <;> decide

theorem Status.code_injective {a b : Status} (h : a.code = b.code) : a = b := by
  revert h; cases a <;> cases b <;> decide

/-- An access that goes on is one to a slot that exists. -/
theorem withSlot_next {s t : State} {k : Byte} {go : Host.Outcome State Fault Refusal}
    (h : withSlot s k go = .next t) : k.toNat < s.params.maxCap ∧ go = .next t := by
  unfold withSlot at h
  split at h
  · exact ⟨‹_›, h⟩
  · cases h

/-- In an initialized state that meets the invariant no access stops. -/
theorem withSlot_slotOf {s : State} {x : Byte} {go : Host.Outcome State Fault Refusal}
    (h : validCap s.params s.cap = true) : withSlot s (slotOf s.cap x) go = go := by
  rw [withSlot, if_pos (slotOf_lt_maxCap x h)]

/-- The ladder of R154, inverted: which rung answered. -/
theorem guarded_next {i : Instr} {s t : State} {go : Host.Outcome State Fault Refusal}
    (h : guarded i s go = .next t) :
    (i.wf = false ∧ t = s.respond i.port .illegal 0#32) ∨
    (i.wf = true ∧ inConflict i s = true ∧ t = s.respond i.port .conflict 0#32) ∨
    (i.wf = true ∧ inConflict i s = false ∧ s.cap = 0#8 ∧ needsInit i = true ∧ t = s.respond i.port .uninit 0#32) ∨
    (i.wf = true ∧ inConflict i s = false ∧ (needsInit i = true → s.cap ≠ 0#8) ∧ go = .next t) := by
  unfold guarded at h
  split at h
  · next hw => cases h; exact .inl ⟨hw, rfl⟩
  · next hw =>
    rw [Bool.not_eq_false] at hw
    split at h
    · next hc => cases h; exact .inr (.inl ⟨hw, hc, rfl⟩)
    · next hc =>
      rw [Bool.not_eq_true] at hc
      split at h
      · next hu => cases h; exact .inr (.inr (.inl ⟨hw, hc, hu.1, hu.2, rfl⟩))
      · next hu => exact .inr (.inr (.inr ⟨hw, hc, fun hn h0 => hu ⟨h0, hn⟩, h⟩))

theorem guarded_illegal {i : Instr} {s : State} {go : Host.Outcome State Fault Refusal} (hw : i.wf = false) :
    guarded i s go = .next (s.respond i.port .illegal 0#32) := by simp [guarded, hw]

theorem guarded_conflict {i : Instr} {s : State} {go : Host.Outcome State Fault Refusal} (hw : i.wf = true)
    (hc : inConflict i s = true) : guarded i s go = .next (s.respond i.port .conflict 0#32) := by
  simp [guarded, hw, hc]

theorem guarded_uninit {i : Instr} {s : State} {go : Host.Outcome State Fault Refusal} (hw : i.wf = true)
    (hc : inConflict i s = false) (h0 : s.cap = 0#8) (hn : needsInit i = true) :
    guarded i s go = .next (s.respond i.port .uninit 0#32) := by simp [guarded, hw, hc, h0, hn]

/-- A legal command that is not in conflict and has its buffer reaches its own rule. -/
theorem guarded_pass {i : Instr} {s : State} {go : Host.Outcome State Fault Refusal} (hw : i.wf = true)
    (hc : inConflict i s = false) (hn : needsInit i = true → s.cap ≠ 0#8) : guarded i s go = go := by
  unfold guarded
  rw [if_neg (by simp [hw]), if_neg (by simp [hc]), if_neg (fun h => hn h.2 h.1)]

/-- A command that is neither INIT nor FLUSH nor NOP conflicts exactly with INIT or FLUSH on the other port. -/
theorem inConflict_of_data {i : Instr} {s : State} (hc : isCtl i = false) (ha : isActive i = true) :
    inConflict i s = s.otherCtl i.port := by
  unfold inConflict State.otherCtl
  cases s.decoded i.port.other <;> simp [clash, hc, ha]

/-- INIT and FLUSH conflict exactly with an active command on the other port. -/
theorem inConflict_of_ctl {i : Instr} {s : State} (hc : isCtl i = true) (ha : isActive i = true) :
    inConflict i s = s.otherActive i.port := by
  unfold inConflict State.otherActive
  cases s.decoded i.port.other with
  | command j => simp only [clash, hc, ha]; cases j <;> rfl
  | illegal _ => rfl

/-! ### The meanings as guarded rules -/

theorem exec_nop (x : Port) (s : State) : exec (.nop x) s = .next (s.respond x .ok 0#32) := rfl
theorem exec_init (x : Port) (c : Byte) (s : State) : exec (.init x c) s =
    guarded (.init x c) s (if validCap s.params c then .next (((s.setCap c).zeroIndices).respond x .ok 0#32)
      else .next (s.respond x .invalidCapacity 0#32)) := rfl
theorem exec_flush (x : Port) (s : State) : exec (.flush x) s =
    guarded (.flush x) s (.next (s.zeroIndices.respond x .ok 0#32)) := rfl
theorem exec_used (x : Port) (s : State) : exec (.used x) s =
    guarded (.used x) s (.next (s.respond x .ok (zextCount s.usedCount))) := rfl
theorem exec_free (x : Port) (s : State) : exec (.free x) s =
    guarded (.free x) s (.next (s.respond x .ok (zextCount s.freeCount))) := rfl
theorem exec_empty (x : Port) (s : State) : exec (.empty x) s =
    guarded (.empty x) s (.next (s.respond x .ok (zextBool s.isEmpty))) := rfl
theorem exec_full (x : Port) (s : State) : exec (.full x) s =
    guarded (.full x) s (.next (s.respond x .ok (zextBool s.isFull))) := rfl
theorem exec_push (x : Port) (s : State) : exec (.push x) s =
    guarded (.push x) s (if s.isFull then .next (s.respond x .overflow 0#32)
      else withSlot s s.pushSlot (.next (s.pushed x))) := rfl
theorem exec_pushu (x : Port) (s : State) : exec (.pushu x) s =
    guarded (.pushu x) s (withSlot s s.pushSlot (.next (s.pushed x))) := rfl
theorem exec_pop (x : Port) (s : State) : exec (.pop x) s =
    guarded (.pop x) s (if s.isEmpty then .next (s.respond x .underflow 0#32)
      else withSlot s s.popSlot (.next (s.popped x))) := rfl
theorem exec_popu (x : Port) (s : State) : exec (.popu x) s =
    guarded (.popu x) s (if s.isEmpty then .next ((s.advanceRd.countDraw).respond x .ok s.drawnElem)
      else withSlot s s.popSlot (.next (s.popped x))) := rfl
theorem exec_peek (x : Port) (s : State) : exec (.peek x) s =
    guarded (.peek x) s (if s.isEmpty then .next (s.countDraw.respond x .ok s.drawnElem)
      else withSlot s s.popSlot (.next (s.respond x .ok (s.readSlot s.popSlot.toNat)))) := rfl

/-! ### What a command does -/

/-- The effects a command can have on the state it runs in. -/
inductive Does (s : State) : Instr → State → Prop
  /-- A response and nothing else. -/
  | answers (i : Instr) (st : Status) (d : Elem) (hd : fit s.params.width d = d) (he : st ≠ .ok → d = 0#32) :
      Does s i (s.respond i.port st d)
  | inits (x : Port) (c : Byte) (hn : inConflict (.init x c) s = false) (hc : validCap s.params c = true) :
      Does s (.init x c) (((s.setCap c).zeroIndices).respond x .ok 0#32)
  | flushes (x : Port) (hn : inConflict (.flush x) s = false) (hi : s.Initialized) :
      Does s (.flush x) (s.zeroIndices.respond x .ok 0#32)
  | pushes (hn : s.otherCtl .P = false) (hi : s.Initialized) (hf : s.isFull = false)
      (hk : s.pushSlot.toNat < s.params.maxCap) : Does s (.push .P) (s.pushed .P)
  | pushesUnchecked (hn : s.otherCtl .P = false) (hi : s.Initialized) (hk : s.pushSlot.toNat < s.params.maxCap) :
      Does s (.pushu .P) (s.pushed .P)
  | pops (hn : s.otherCtl .C = false) (hi : s.Initialized) (he : s.isEmpty = false)
      (hk : s.popSlot.toNat < s.params.maxCap) : Does s (.pop .C) (s.popped .C)
  | popsUnchecked (hn : s.otherCtl .C = false) (hi : s.Initialized) (he : s.isEmpty = false)
      (hk : s.popSlot.toNat < s.params.maxCap) : Does s (.popu .C) (s.popped .C)
  | popsEmpty (hn : s.otherCtl .C = false) (hi : s.Initialized) (he : s.isEmpty = true) :
      Does s (.popu .C) ((s.advanceRd.countDraw).respond .C .ok s.drawnElem)
  | peeksEmpty (hn : s.otherCtl .C = false) (hi : s.Initialized) (he : s.isEmpty = true) :
      Does s (.peek .C) (s.countDraw.respond .C .ok s.drawnElem)

theorem Does.error (s : State) (i : Instr) (st : Status) : Does s i (s.respond i.port st 0#32) :=
  .answers i st _ (fit_zero _) fun _ => rfl

theorem Does.result (s : State) (i : Instr) (d : Elem) (hd : fit s.params.width d = d) :
    Does s i (s.respond i.port .ok d) := .answers i .ok d hd fun h => absurd rfl h

/-- A guarded command did what its own rule did, or only answered an error. -/
theorem guarded_does {i : Instr} {s t : State} {go : Host.Outcome State Fault Refusal}
    (h : guarded i s go = .next t)
    (own : i.wf = true → inConflict i s = false → (needsInit i = true → s.cap ≠ 0#8) → go = .next t → Does s i t) :
    Does s i t := by
  obtain ⟨-, rfl⟩ | ⟨-, -, rfl⟩ | ⟨-, -, -, -, rfl⟩ | ⟨hw, hc, hn, hg⟩ := guarded_next h
  · exact .error s i _
  · exact .error s i _
  · exact .error s i _
  · exact own hw hc hn hg

theorem execInit_does {x : Port} {c : Byte} {s t : State} (h : execInit x c s = .next t) : Does s (.init x c) t := by
  refine guarded_does h fun _ hn _ hg => ?_
  split at hg <;> cases hg
  · exact .inits x c hn ‹_›
  · exact .error s (.init x c) _

theorem execFlush_does {x : Port} {s t : State} (h : execFlush x s = .next t) : Does s (.flush x) t := by
  refine guarded_does h fun _ hn hi hg => ?_
  cases hg; exact .flushes x hn (hi rfl)

theorem execNop_does {x : Port} {s t : State} (h : execNop x s = .next t) : Does s (.nop x) t := by
  cases h; exact .result s (.nop x) _ (fit_zero _)

theorem execUsed_does {x : Port} {s t : State} (h : execUsed x s = .next t) : Does s (.used x) t :=
  guarded_does h fun _ _ _ hg => by cases hg; exact .result s (.used x) _ (fit_zextCount _ _)

theorem execFree_does {x : Port} {s t : State} (h : execFree x s = .next t) : Does s (.free x) t :=
  guarded_does h fun _ _ _ hg => by cases hg; exact .result s (.free x) _ (fit_zextCount _ _)

theorem execEmpty_does {x : Port} {s t : State} (h : execEmpty x s = .next t) : Does s (.empty x) t :=
  guarded_does h fun _ _ _ hg => by cases hg; exact .result s (.empty x) _ (fit_zextBool _ _)

theorem execFull_does {x : Port} {s t : State} (h : execFull x s = .next t) : Does s (.full x) t :=
  guarded_does h fun _ _ _ hg => by cases hg; exact .result s (.full x) _ (fit_zextBool _ _)

theorem execPush_does {x : Port} {s t : State} (h : execPush x s = .next t) : Does s (.push x) t := by
  refine guarded_does h fun hw hn hi hg => ?_
  obtain rfl : x = .P := by simpa [Instr.wf] using hw
  rw [inConflict_of_data rfl rfl] at hn
  split at hg
  · cases hg; exact .error s (.push .P) _
  · next hf =>
    obtain ⟨hk, hg⟩ := withSlot_next hg
    cases hg; exact .pushes hn (hi rfl) (by simpa using hf) hk

theorem execPushu_does {x : Port} {s t : State} (h : execPushu x s = .next t) : Does s (.pushu x) t := by
  refine guarded_does h fun hw hn hi hg => ?_
  obtain rfl : x = .P := by simpa [Instr.wf] using hw
  rw [inConflict_of_data rfl rfl] at hn
  obtain ⟨hk, hg⟩ := withSlot_next hg
  cases hg; exact .pushesUnchecked hn (hi rfl) hk

theorem execPop_does {x : Port} {s t : State} (h : execPop x s = .next t) : Does s (.pop x) t := by
  refine guarded_does h fun hw hn hi hg => ?_
  obtain rfl : x = .C := by simpa [Instr.wf] using hw
  rw [inConflict_of_data rfl rfl] at hn
  split at hg
  · cases hg; exact .error s (.pop .C) _
  · next he =>
    obtain ⟨hk, hg⟩ := withSlot_next hg
    cases hg; exact .pops hn (hi rfl) (by simpa using he) hk

theorem execPopu_does {x : Port} {s t : State} (h : execPopu x s = .next t) : Does s (.popu x) t := by
  refine guarded_does h fun hw hn hi hg => ?_
  obtain rfl : x = .C := by simpa [Instr.wf] using hw
  rw [inConflict_of_data rfl rfl] at hn
  split at hg
  · cases hg; exact .popsEmpty hn (hi rfl) ‹_›
  · next he =>
    obtain ⟨hk, hg⟩ := withSlot_next hg
    cases hg; exact .popsUnchecked hn (hi rfl) (by simpa using he) hk

theorem execPeek_does {x : Port} {s t : State} (h : execPeek x s = .next t) : Does s (.peek x) t := by
  refine guarded_does h fun hw hn hi hg => ?_
  obtain rfl : x = .C := by simpa [Instr.wf] using hw
  rw [inConflict_of_data rfl rfl] at hn
  split at hg
  · cases hg; exact .peeksEmpty hn (hi rfl) ‹_›
  · obtain ⟨-, hg⟩ := withSlot_next hg
    cases hg; exact .result s (.peek .C) _ (fit_readSlot _ _)

/-- Whatever command ran, it did one of the things `Does` lists. -/
theorem exec_does {i : Instr} {s t : State} (h : exec i s = .next t) : Does s i t := by
  cases i with
  | nop x => exact execNop_does h
  | init x c => exact execInit_does h
  | flush x => exact execFlush_does h
  | used x => exact execUsed_does h
  | free x => exact execFree_does h
  | empty x => exact execEmpty_does h
  | full x => exact execFull_does h
  | push x => exact execPush_does h
  | pushu x => exact execPushu_does h
  | pop x => exact execPop_does h
  | popu x => exact execPopu_does h
  | peek x => exact execPeek_does h

/-- No command writes the parameters, the contract flag or the inputs, nor the other port's response. -/
theorem Does.frame {i : Instr} {s t : State} (h : Does s i t) :
    t.params = s.params ∧ t.violated = s.violated ∧ t.inputs = s.inputs ∧
      t.statusOn i.port.other = s.statusOn i.port.other ∧ t.rdataOn i.port.other = s.rdataOn i.port.other := by
  cases h with
  | answers st d hd he => simp
  | inits x c hn hc => cases x <;> exact ⟨rfl, rfl, rfl, rfl, rfl⟩
  | flushes x hn hi => cases x <;> exact ⟨rfl, rfl, rfl, rfl, rfl⟩
  | pushes hn hi hf hk => exact ⟨rfl, rfl, rfl, rfl, rfl⟩
  | pushesUnchecked hn hi hk => exact ⟨rfl, rfl, rfl, rfl, rfl⟩
  | pops hn hi he hk => exact ⟨rfl, rfl, rfl, rfl, rfl⟩
  | popsUnchecked hn hi he hk => exact ⟨rfl, rfl, rfl, rfl, rfl⟩
  | popsEmpty hn hi he => exact ⟨rfl, rfl, rfl, rfl, rfl⟩
  | peeksEmpty hn hi he => exact ⟨rfl, rfl, rfl, rfl, rfl⟩

end Sys2Proof.Machine
end

