-- ==== Sys2Proof/Laws/PerInstr.lean ====
section
/-! SUPPORT. Facts about every command as syntax, one lemma per constructor. -/

/-- Family `WordFields`: the word of a command carries its opcode in bits 15 to 12, 0 in the reserved bits 11 to 8,
and its immediate in bits 7 to 0 (30_encoding.md R70). -/
def Sys2Proof.Laws.WordFields.Statement (i : Sys2Proof.Instr) : Prop :=
  Sys2Proof.opcOf (Sys2Proof.encode i) = i.opc ∧ Sys2Proof.rsvOf (Sys2Proof.encode i) = 0#4 ∧
    Sys2Proof.imm8Of (Sys2Proof.encode i) = i.imm8

namespace Sys2Proof.Laws

theorem WordFields.nop (x : Port) : WordFields.Statement (.nop x) := by
  cases x <;> simp only [WordFields.Statement] <;> decide
theorem WordFields.init (x : Port) (c : Byte) : WordFields.Statement (.init x c) := by
  cases x <;> simp only [WordFields.Statement] <;> revert c <;> decide
theorem WordFields.flush (x : Port) : WordFields.Statement (.flush x) := by
  cases x <;> simp only [WordFields.Statement] <;> decide
theorem WordFields.used (x : Port) : WordFields.Statement (.used x) := by
  cases x <;> simp only [WordFields.Statement] <;> decide
theorem WordFields.free (x : Port) : WordFields.Statement (.free x) := by
  cases x <;> simp only [WordFields.Statement] <;> decide
theorem WordFields.empty (x : Port) : WordFields.Statement (.empty x) := by
  cases x <;> simp only [WordFields.Statement] <;> decide
theorem WordFields.full (x : Port) : WordFields.Statement (.full x) := by
  cases x <;> simp only [WordFields.Statement] <;> decide
theorem WordFields.push (x : Port) : WordFields.Statement (.push x) := by
  cases x <;> simp only [WordFields.Statement] <;> decide
theorem WordFields.pushu (x : Port) : WordFields.Statement (.pushu x) := by
  cases x <;> simp only [WordFields.Statement] <;> decide
theorem WordFields.pop (x : Port) : WordFields.Statement (.pop x) := by
  cases x <;> simp only [WordFields.Statement] <;> decide
theorem WordFields.popu (x : Port) : WordFields.Statement (.popu x) := by
  cases x <;> simp only [WordFields.Statement] <;> decide
theorem WordFields.peek (x : Port) : WordFields.Statement (.peek x) := by
  cases x <;> simp only [WordFields.Statement] <;> decide

end Sys2Proof.Laws
end

