-- ==== Sys2Proof/Laws/Step.lean ====
section
/-! SUPPORT. What each port's side of a cycle can change, and everything one step can do, said once. -/

namespace Sys2Proof.Machine

/-! ### One port's side of a cycle -/

theorem runPort_command {x : Port} {s : State} {i : Instr} (h : s.decoded x = .command i) : runPort x s = exec i s := by
  rw [runPort, h]

theorem runPort_illegal {x : Port} {s : State} {r : Illegal} (h : s.decoded x = .illegal r) :
    runPort x s = .next (s.respond x .illegal 0#32) := by rw [runPort, h]; rfl

/-- A port's side of a cycle does what some command of that port does; an ILLEGAL word only answers. -/
theorem runPort_does {x : Port} {s t : State} (h : runPort x s = .next t) :
    ∃ i : Instr, i.port = x ∧ Does s i t ∧ (s.decoded x = .command i ∨ t = s.respond x .illegal 0#32) := by
  cases hd : s.decoded x with
  | command i =>
    rw [runPort_command hd] at h
    exact ⟨i, decode_port hd, exec_does h, .inl rfl⟩
  | illegal r =>
    rw [runPort_illegal hd] at h
    cases h
    exact ⟨.nop x, rfl, .error s (.nop x) _, .inr rfl⟩

/-- The producer's side never advances `rd`, draws nothing, and leaves the consumer's response alone (10_state.md R31). -/
theorem Does.producer_frame {i : Instr} {s p : State} (h : Does s i p) (hx : i.port = .P) :
    p.params = s.params ∧ p.violated = s.violated ∧ p.inputs = s.inputs ∧ p.draws = s.draws ∧
      p.cStatus = s.cStatus ∧ p.cRdata = s.cRdata ∧ (isCtl i = false → p.cap = s.cap ∧ p.rd = s.rd) := by
  cases h with
  | answers st d hd he => rw [hx]; exact ⟨rfl, rfl, rfl, rfl, rfl, rfl, fun _ => ⟨rfl, rfl⟩⟩
  | inits x c hn hc => obtain rfl : x = .P := hx; exact ⟨rfl, rfl, rfl, rfl, rfl, rfl, nofun⟩
  | flushes x hn hi => obtain rfl : x = .P := hx; exact ⟨rfl, rfl, rfl, rfl, rfl, rfl, nofun⟩
  | pushes hn hi hf hk => exact ⟨rfl, rfl, rfl, rfl, rfl, rfl, fun _ => ⟨rfl, rfl⟩⟩
  | pushesUnchecked hn hi hk => exact ⟨rfl, rfl, rfl, rfl, rfl, rfl, fun _ => ⟨rfl, rfl⟩⟩
  | pops | popsUnchecked | popsEmpty | peeksEmpty => cases hx

/-- The consumer's side never advances `wr` or writes a slot, and leaves the producer's response alone (R31). -/
theorem Does.consumer_frame {i : Instr} {s c : State} (h : Does s i c) (hx : i.port = .C) :
    c.params = s.params ∧ c.violated = s.violated ∧ c.inputs = s.inputs ∧ c.mem = s.mem ∧
      c.pStatus = s.pStatus ∧ c.pRdata = s.pRdata ∧ (isCtl i = false → c.cap = s.cap ∧ c.wr = s.wr) := by
  cases h with
  | answers st d hd he => rw [hx]; exact ⟨rfl, rfl, rfl, rfl, rfl, rfl, fun _ => ⟨rfl, rfl⟩⟩
  | inits x c hn hc => obtain rfl : x = .C := hx; exact ⟨rfl, rfl, rfl, rfl, rfl, rfl, nofun⟩
  | flushes x hn hi => obtain rfl : x = .C := hx; exact ⟨rfl, rfl, rfl, rfl, rfl, rfl, nofun⟩
  | pops hn hi he hk => exact ⟨rfl, rfl, rfl, rfl, rfl, rfl, fun _ => ⟨rfl, rfl⟩⟩
  | popsUnchecked hn hi he hk => exact ⟨rfl, rfl, rfl, rfl, rfl, rfl, fun _ => ⟨rfl, rfl⟩⟩
  | popsEmpty hn hi he => exact ⟨rfl, rfl, rfl, rfl, rfl, rfl, fun _ => ⟨rfl, rfl⟩⟩
  | peeksEmpty hn hi he => exact ⟨rfl, rfl, rfl, rfl, rfl, rfl, fun _ => ⟨rfl, rfl⟩⟩
  | pushes | pushesUnchecked => cases hx

/-- A port whose command is not active only answers (20_memory.md R60). -/
theorem runPort_inactive {x : Port} {s t : State} (ha : s.otherActive x = false) (h : runPort x.other s = .next t) :
    ∃ st : Status, t = s.respond x.other st 0#32 := by
  unfold State.otherActive at ha
  cases hd : s.decoded x.other with
  | illegal r => rw [runPort_illegal hd] at h; cases h; exact ⟨_, rfl⟩
  | command j =>
    rw [hd] at ha
    rw [runPort_command hd] at h
    have hj := decode_port hd
    cases j with
    | nop y => obtain rfl := hj; cases h; exact ⟨_, rfl⟩
    | _ => cases ha

/-- The registers and storage after a command that only answered. -/
@[simp] theorem State.respond_block (s : State) (x : Port) (st : Status) (d : Elem) :
    (s.respond x st d).block = s.block := by cases x <;> rfl

/-! ### One step -/

/-- Everything a step that answers a next state can have done: a reset cycle, or both ports' sides joined. -/
theorem step_next {s t : State} (h : step s = .next t) :
    (s.pins.rst = true ∧ t = s.resetBlock.nextInputs) ∨
    (s.pins.rst = false ∧ ∃ p c, runPort .P s = .next p ∧ runPort .C s = .next c ∧ t = closeCycle s p c) := by
  unfold step cycle at h
  split at h
  · cases h; exact .inl ⟨‹_›, rfl⟩
  · next hr =>
    right
    refine ⟨by simpa using hr, ?_⟩
    split at h <;> cases h
    next p c hp hc => exact ⟨p, c, hp, hc, rfl⟩

theorem step_reset {s : State} (h : s.pins.rst = true) : step s = .next s.resetBlock.nextInputs := by
  simp [step, cycle, h]

theorem step_ports {s p c : State} (h : s.pins.rst = false) (hp : runPort .P s = .next p)
    (hc : runPort .C s = .next c) : step s = .next (closeCycle s p c) := by
  simp [step, cycle, h, hp, hc]

/-- The fields of a closed cycle, from the ports' own results. -/
theorem closeCycle_fields (s p c : State) :
    (closeCycle s p c).params = s.params ∧ (closeCycle s p c).cap = commit s.cap p.cap c.cap ∧
    (closeCycle s p c).rd = commit s.rd p.rd c.rd ∧ (closeCycle s p c).wr = commit s.wr p.wr c.wr ∧
    (closeCycle s p c).mem = commit s.mem p.mem c.mem ∧ (closeCycle s p c).draws = commit s.draws p.draws c.draws ∧
    (closeCycle s p c).pStatus = p.pStatus ∧ (closeCycle s p c).pRdata = p.pRdata ∧
    (closeCycle s p c).cStatus = c.cStatus ∧ (closeCycle s p c).cRdata = c.cRdata ∧
    (closeCycle s p c).inputs = s.inputs.tail ∧
    (closeCycle s p c).violated = (s.violated || !(violations s (joinPorts s p c)).isEmpty) :=
  ⟨rfl, rfl, rfl, rfl, rfl, rfl, rfl, rfl, rfl, rfl, rfl, rfl⟩

/-- What the producer's side of a cycle can leave in the block, where it is neither INIT nor FLUSH that took effect. -/
abbrev ProducerEffect (s p : State) : Prop :=
  p.cap = s.cap ∧ p.rd = s.rd ∧
    ((p.wr = s.wr ∧ p.mem = s.mem) ∨
      (s.Initialized ∧ s.pushSlot.toNat < s.params.maxCap ∧ p.wr = nextIndex s.cap s.wr ∧
        p.mem = s.mem.write s.pushSlot.toNat s.pushOperand))

/-- What the consumer's side of a cycle can leave in the block, where it is neither INIT nor FLUSH that took effect. -/
abbrev ConsumerEffect (s c : State) : Prop :=
  c.cap = s.cap ∧ c.wr = s.wr ∧ c.mem = s.mem ∧ (c.rd = s.rd ∨ (s.Initialized ∧ c.rd = nextIndex s.cap s.rd))

/-- INIT's or FLUSH's effect on the block. -/
abbrev ControlEffect (s t : State) : Prop :=
  ((∃ n, validCap s.params n = true ∧ t.cap = n) ∨ (s.Initialized ∧ t.cap = s.cap)) ∧
    t.rd = 0#8 ∧ t.wr = 0#8 ∧ t.mem = s.mem

theorem Does.producer_effect {i : Instr} {s p : State} (h : Does s i p) (hx : i.port = .P) :
    ProducerEffect s p ∨ (ControlEffect s p ∧ s.otherActive .P = false) := by
  cases h with
  | answers st d hd he => left; simp [ProducerEffect]
  | inits x c hn hc =>
    obtain rfl : x = .P := hx
    rw [inConflict_of_ctl rfl rfl] at hn
    exact .inr ⟨⟨.inl ⟨c, hc, rfl⟩, rfl, rfl, rfl⟩, hn⟩
  | flushes x hn hi =>
    obtain rfl : x = .P := hx
    rw [inConflict_of_ctl rfl rfl] at hn
    exact .inr ⟨⟨.inr ⟨hi, rfl⟩, rfl, rfl, rfl⟩, hn⟩
  | pushes hn hi hf hk => exact .inl ⟨rfl, rfl, .inr ⟨hi, hk, rfl, rfl⟩⟩
  | pushesUnchecked hn hi hk => exact .inl ⟨rfl, rfl, .inr ⟨hi, hk, rfl, rfl⟩⟩
  | pops | popsUnchecked | popsEmpty | peeksEmpty => cases hx

theorem Does.consumer_effect {i : Instr} {s c : State} (h : Does s i c) (hx : i.port = .C) :
    ConsumerEffect s c ∨ (ControlEffect s c ∧ s.otherActive .C = false) := by
  cases h with
  | answers st d hd he => left; simp [ConsumerEffect]
  | inits x c hn hc =>
    obtain rfl : x = .C := hx
    rw [inConflict_of_ctl rfl rfl] at hn
    exact .inr ⟨⟨.inl ⟨c, hc, rfl⟩, rfl, rfl, rfl⟩, hn⟩
  | flushes x hn hi =>
    obtain rfl : x = .C := hx
    rw [inConflict_of_ctl rfl rfl] at hn
    exact .inr ⟨⟨.inr ⟨hi, rfl⟩, rfl, rfl, rfl⟩, hn⟩
  | pops hn hi he hk => exact .inl ⟨rfl, rfl, rfl, .inr ⟨hi, rfl⟩⟩
  | popsUnchecked hn hi he hk => exact .inl ⟨rfl, rfl, rfl, .inr ⟨hi, rfl⟩⟩
  | popsEmpty hn hi he => exact .inl ⟨rfl, rfl, rfl, .inr ⟨hi, rfl⟩⟩
  | peeksEmpty hn hi he => exact .inl ⟨rfl, rfl, rfl, .inl rfl⟩
  | pushes | pushesUnchecked => cases hx

/-- Everything a cycle without reset can leave in the registers and storage: one port's INIT or FLUSH, or a push side
and a pop side that meet in no state element (20_memory.md R61). -/
theorem step_effect {s t : State} (h : step s = .next t) (hr : s.pins.rst = false) :
    ControlEffect s t ∨
    (t.cap = s.cap ∧
      ((t.wr = s.wr ∧ t.mem = s.mem) ∨
        (s.Initialized ∧ s.pushSlot.toNat < s.params.maxCap ∧ t.wr = nextIndex s.cap s.wr ∧
          t.mem = s.mem.write s.pushSlot.toNat s.pushOperand)) ∧
      (t.rd = s.rd ∨ (s.Initialized ∧ t.rd = nextIndex s.cap s.rd))) := by
  rcases step_next h with ⟨hr', -⟩ | ⟨-, p, c, hP, hC, rfl⟩
  · rw [hr] at hr'; cases hr'
  obtain ⟨-, e1, e2, e3, e4, -⟩ := closeCycle_fields s p c
  obtain ⟨iP, hxP, hdP, -⟩ := runPort_does hP
  obtain ⟨iC, hxC, hdC, -⟩ := runPort_does hC
  unfold ControlEffect
  rw [e1, e2, e3, e4]
  rcases hdP.producer_effect hxP with ⟨p1, p2, p3⟩ | ⟨⟨p1, p2, p3, p4⟩, ha⟩
  · rcases hdC.consumer_effect hxC with ⟨c1, c2, c3, c4⟩ | ⟨⟨c1, c2, c3, c4⟩, ha⟩
    · right
      rw [p1, p2, c1, c2, c3]
      simp only [commit_self_left, commit_self_right]
      exact ⟨trivial, p3, c4⟩
    · left
      obtain ⟨st, rfl⟩ := runPort_inactive (x := .C) ha hP
      simp only [State.respond_cap, State.respond_rd, State.respond_wr, State.respond_mem, commit_self_left, Port.other]
      exact ⟨c1, c2, c3, c4⟩
  · left
    obtain ⟨st, rfl⟩ := runPort_inactive (x := .P) ha hC
    simp only [State.respond_cap, State.respond_rd, State.respond_wr, State.respond_mem, commit_self_right, Port.other]
    exact ⟨p1, p2, p3, p4⟩

/-- `exec` answers a next state wherever the invariant holds. -/
theorem exec_answers (i : Instr) {s : State} (h : s.Inv) : ∃ t, exec i s = .next t := by
  have key : ∀ (j : Instr) (go : Host.Outcome State Fault Refusal),
      ((needsInit j = true → s.cap ≠ 0#8) → ∃ t, go = .next t) → ∃ t, guarded j s go = .next t := by
    intro j go hg
    unfold guarded
    split
    · exact ⟨_, rfl⟩
    · split
      · exact ⟨_, rfl⟩
      · split
        · exact ⟨_, rfl⟩
        · next hu => exact hg fun hn h0 => hu ⟨h0, hn⟩
  cases i with
  | nop x => exact ⟨_, rfl⟩
  | init x c => exact key (.init x c) _ fun _ => by split <;> exact ⟨_, rfl⟩
  | flush x => exact key (.flush x) _ fun _ => ⟨_, rfl⟩
  | used x => exact key (.used x) _ fun _ => ⟨_, rfl⟩
  | free x => exact key (.free x) _ fun _ => ⟨_, rfl⟩
  | empty x => exact key (.empty x) _ fun _ => ⟨_, rfl⟩
  | full x => exact key (.full x) _ fun _ => ⟨_, rfl⟩
  | push x =>
    refine key _ _ fun hi => ?_
    split
    · exact ⟨_, rfl⟩
    · exact ⟨_, withSlot_slotOf (h.valid (hi rfl))⟩
  | pushu x => exact key _ _ fun hi => ⟨_, withSlot_slotOf (h.valid (hi rfl))⟩
  | pop x =>
    refine key _ _ fun hi => ?_
    split
    · exact ⟨_, rfl⟩
    · exact ⟨_, withSlot_slotOf (h.valid (hi rfl))⟩
  | popu x =>
    refine key _ _ fun hi => ?_
    split
    · exact ⟨_, rfl⟩
    · exact ⟨_, withSlot_slotOf (h.valid (hi rfl))⟩
  | peek x =>
    refine key _ _ fun hi => ?_
    split
    · exact ⟨_, rfl⟩
    · exact ⟨_, withSlot_slotOf (h.valid (hi rfl))⟩

end Sys2Proof.Machine
end

