-- ==== Sys2Proof/Tests/Slice0.lean ====
section
/-! SUPPORT. The model's own tests: decoding of words written out from the spec, the well-formedness smoke tests, one or two
single steps per command from spec/95_test_vectors.md, and one witness for the hypotheses of each statement. -/

namespace Sys2Proof.Tests

open Sys2Proof Sys2Proof.Machine

/-- A state of the reference instance with these registers and storage, about to clock cycle `c`. -/
def st (cap rd wr : Byte) (mem : Memory) (c : CycleIn) : State :=
  { State.reset with cap := cap, rd := rd, wr := wr, mem := mem, inputs := [c] }

/-- A cycle without reset. -/
def cyc (p : Cmd) (v : Elem) (c : Cmd) : CycleIn := { rst := false, pCmd := p, pWdata := v, cCmd := c }

/-- The storage `a b c d` of the spec's vectors. -/
def abcd : Memory := [(0, 0xA#32), (1, 0xB#32), (2, 0xC#32), (3, 0xD#32)]

/-- The outcome is a next state that passes a check. -/
def nextIs (o : Host.Outcome State Fault Refusal) (f : State → Bool) : Bool :=
  match o with
  | .next t => f t
  | .fault _ => false
  | .refused _ => false

/-- Responses `(status, rdata)` of both ports, and the registers, after a step. -/
def gives (s : State) (p : StatusCode × Elem) (c : StatusCode × Elem) (regs : Byte × Byte × Byte) : Bool :=
  nextIs (step s) fun t =>
    (t.pStatus, t.pRdata) == p && (t.cStatus, t.cRdata) == c && (t.cap, t.rd, t.wr) == regs

/-! ## Words written out from 30_encoding.md R70, R74 and R82 -/

theorem test_decode_nop : decode .P 0b0000000000000000#16 = .command (.nop .P) := by decide
theorem test_decode_init : decode .C 0b0001000010000000#16 = .command (.init .C 128#8) := by decide
theorem test_decode_flush : decode .C 0b0010000000000000#16 = .command (.flush .C) := by decide
theorem test_decode_used : decode .P 0b0011000000000000#16 = .command (.used .P) := by decide
theorem test_decode_free : decode .C 0b0100000000000000#16 = .command (.free .C) := by decide
theorem test_decode_empty : decode .C 0b0101000000000000#16 = .command (.empty .C) := by decide
theorem test_decode_full : decode .P 0b0110000000000000#16 = .command (.full .P) := by decide
theorem test_decode_push : decode .P 0b1000000000000000#16 = .command (.push .P) := by decide
theorem test_decode_pushu : decode .P 0b1001000000000000#16 = .command (.pushu .P) := by decide
theorem test_decode_pop : decode .C 0b1010000000000000#16 = .command (.pop .C) := by decide
theorem test_decode_popu : decode .C 0b1011000000000000#16 = .command (.popu .C) := by decide
theorem test_decode_peek : decode .C 0b1100000000000000#16 = .command (.peek .C) := by decide

/-- Vectors 2.3.7, 2.3.20, 2.3.14, 2.3.17, 2.3.15. -/
theorem test_decode_illegal :
    decode .P 0x1100#16 = .illegal .reservedField ∧ decode .C 0xC001#16 = .illegal .immediateNonzero ∧
    decode .P 0x7000#16 = .illegal .reservedOpcode ∧ decode .P 0xA000#16 = .illegal .wrongPort ∧
    decode .C 0x8000#16 = .illegal .wrongPort := by decide

theorem test_encode_init : encode (.init .P 4#8) = 0x1004#16 := by decide

/-- The table's words, each on a port it is legal on; a word of a reserved opcode is none. -/
theorem test_decodeTableWord : decodeTableWord 16 0xC000 = some (.peek .C) ∧
    decodeTableWord 16 0x8000 = some (.push .P) ∧ decodeTableWord 16 0x7000 = none := by decide

/-! ## Well-formedness: an ill-formed command for each check of R75 -/

theorem test_wf_refuses_push_on_C : (Instr.push .C).wf = false := by decide
theorem test_wf_refuses_pushu_on_C : (Instr.pushu .C).wf = false := by decide
theorem test_wf_refuses_pop_on_P : (Instr.pop .P).wf = false := by decide
theorem test_wf_refuses_popu_on_P : (Instr.popu .P).wf = false := by decide
theorem test_wf_refuses_peek_on_P : (Instr.peek .P).wf = false := by decide

/-! ## Single steps of 95_test_vectors.md -/

/-- 2.4.7: re-initialization discards the queue. -/
theorem test_init_again : gives (st 4 3 6 abcd (cyc 0x1002 0 0)) (0, 0) (0, 0) (2, 0, 0) = true := by decide
/-- 2.4.10: CONFLICT before INVALID_CAPACITY. -/
theorem test_init_conflict : gives (st 4 3 6 abcd (cyc 0x1003 0 0xC000)) (6, 0) (6, 0) (4, 3, 6) = true := by decide
/-- 2.4.14: 64 is no valid capacity where `P_MAX_CAP = 32`. -/
theorem test_init_small_instance :
    gives { st 0 0 0 [] (cyc 0x1040 0 0) with params := { width := .w8, logMaxCap := 5 } } (1, 0) (0, 0) (0, 0, 0) = true := by
  decide
/-- 2.8.3: an ILLEGAL word on the other port is no conflict. -/
theorem test_flush_illegal : gives (st 4 3 6 abcd (cyc 0x2000 0 0xA001)) (0, 0) (4, 0) (4, 0, 0) = true := by decide
/-- 2.8.7. -/
theorem test_flush_uninit : gives (st 0 0 0 [] (cyc 0x2000 0 0)) (5, 0) (0, 0) (0, 0, 0) = true := by decide
/-- 2.8.8. -/
theorem test_nop : gives (st 4 3 6 abcd (cyc 0 0 0)) (0, 0) (0, 0) (4, 3, 6) = true := by decide
/-- 2.5.4: a corrupted state. -/
theorem test_used_free : gives (st 4 1 6 abcd (cyc 0x3000 0 0x4000)) (0, 5) (0, 255) (4, 1, 6) = true := by decide
/-- 2.5.3. -/
theorem test_empty_full : gives (st 4 1 5 abcd (cyc 0x5000 0 0x6000)) (0, 0) (0, 1) (4, 1, 5) = true := by decide
/-- 2.6.2: `wr` wraps, slot 3 is written. -/
theorem test_push_wraps : nextIs (step (st 4 6 7 abcd (cyc 0x8000 0x2A 0)))
    (fun t => t.wr == 0 && t.mem == [(0, 0xA#32), (1, 0xB#32), (2, 0xC#32), (3, 0x2A#32)]) = true := by decide
/-- 2.6.4: the full test is of the start of the cycle. -/
theorem test_push_full_with_pop :
    gives (st 4 1 5 abcd (cyc 0x8000 0x22 0xA000)) (2, 0) (0, 0xB) (4, 2, 5) = true := by decide
/-- 2.6.5: the unread element is overwritten, V1. -/
theorem test_pushu_full : nextIs (step (st 4 1 5 abcd (cyc 0x9000 0x99 0)))
    (fun t => t.readSlot 1 == 0x99 && t.usedCount == 5 && t.freeCount == 255 && t.violated) = true := by decide
/-- 2.6.6: within contract, and POP reads the old element. -/
theorem test_pushu_full_with_pop : nextIs (step (st 4 1 5 abcd (cyc 0x9000 0x99 0xA000)))
    (fun t => t.cRdata == 0xB && t.readSlot 1 == 0x99 && t.rd == 2 && t.wr == 6 && !t.violated) = true := by decide
/-- 2.7.1. -/
theorem test_pop_wraps : gives (st 4 7 1 abcd (cyc 0 0 0xA000)) (0, 0) (0, 0xD) (4, 0, 1) = true := by decide
/-- 2.7.3: the pop does not see the push of its own cycle. -/
theorem test_pop_empty_with_push :
    gives (st 4 3 3 abcd (cyc 0x8000 0x55 0xA000)) (0, 0) (3, 0) (4, 3, 4) = true := by decide
/-- 2.7.16: PUSHU and POPU on a full buffer. -/
theorem test_popu_full_with_pushu : nextIs (step (st 2 0 2 [(0, 1#32), (1, 2#32)] (cyc 0x9000 3 0xB000)))
    (fun t => t.cRdata == 1 && t.mem == [(0, 3#32), (1, 2#32)] && t.rd == 1 && t.wr == 3 && !t.violated) = true := by decide
/-- 2.7.4: on an empty buffer `rd` advances, and the data is not checked (it is free). -/
theorem test_popu_empty : nextIs (step (st 4 3 3 abcd (cyc 0 0 0xB000)))
    (fun t => t.cStatus == 0 && t.rd == 4 && t.usedCount == 7 && t.freeCount == 253 && t.violated) = true := by decide
/-- 2.7.8. -/
theorem test_peek_with_push :
    gives (st 4 2 3 abcd (cyc 0x8000 0x66 0xC000)) (0, 0) (0, 0xC) (4, 2, 4) = true := by decide
/-- 2.7.5: the data is not checked (it is free). -/
theorem test_peek_empty : nextIs (step (st 4 3 3 abcd (cyc 0 0 0xC000)))
    (fun t => t.cStatus == 0 && t.rd == 3 && t.violated) = true := by decide
/-- 2.10.2: both commands are lost, the storage stays. -/
theorem test_reset_cycle : nextIs (step (st 4 1 3 abcd { cyc 0x8000 9 0xA000 with rst := true }))
    (fun t => t.cap == 0 && t.rd == 0 && t.wr == 0 && t.mem == abcd && !t.violated) = true := by decide
/-- 2.9.1: V5 and V6. -/
theorem test_violations : nextIs (step (st 0 0 0 [] (cyc 0xA000 0 0x6000)))
    (fun t => violations (st 0 0 0 [] (cyc 0xA000 0 0x6000)) t == [.uninitialized, .illegalWord]) = true := by decide
/-- An 8-bit instance stores 8 bits of `p_wdata`. -/
theorem test_push_width :
    nextIs (step { st 4 0 0 [] (cyc 0x8000 0x1FF 0) with params := { width := .w8, logMaxCap := 7 } })
      (fun t => t.mem == [(0, 0xFF#32)]) = true := by decide
/-- The host's presentation of a word is the next cycle's command, here INIT 4 from reset. -/
theorem test_withFetchWord : nextIs (step (State.reset.withFetchWord 16 0x1004))
    (fun t => t.cap == 4 && t.pStatus == 0 && t.inputs == []) = true := by decide
/-- R80, R81: program 6's text, cut to three cycles. -/
theorem test_assemble : assemble .w32 [.cycle (.init (.lit 4)) .dash, .repeated 1 2 (.push .i) .pop] =
    some [cyc 0x1004 0 0, cyc 0x8000 1 0xA000, cyc 0x8000 2 0xA000] := by decide
/-- Log 14: an element or a capacity too large for its field, and `i` outside a `repeat`, have no inputs. -/
theorem test_assemble_none : assemble .w8 [.cycle (.push (.lit 255)) .dash] = some [cyc 0x8000 255 0] ∧
    assemble .w8 [.cycle (.push (.lit 256)) .dash] = none ∧ assemble .w32 [.cycle .dash (.init (.lit 256))] = none ∧
    assemble .w32 [.cycle (.pushu .i) .dash] = none := by decide

/-! ## Witnesses: concrete inputs that meet the hypotheses of each statement, clause by clause -/

/-- Two of four slots used. -/
def mid (c : CycleIn) : State := st 4 1 3 abcd c
/-- Four of four slots used. -/
def packed (c : CycleIn) : State := st 4 1 5 abcd c
/-- Nothing used, away from slot 0. -/
def drained (c : CycleIn) : State := st 4 3 3 abcd c
/-- The uninitialized block. -/
def fresh (c : CycleIn) : State := st 0 0 0 [] c
/-- Nothing presented. -/
def quiet : CycleIn := cyc 0 0 0

theorem witness_DecodeOfEncodeIsTheCommand : (Instr.init .C 255#8).wf = true ∧ (Instr.peek .C).wf = true := by decide
theorem witness_DecodedWordIsTheCommandsEncoding : decode .P 0x10FF#16 = .command (.init .P 255#8) := by decide
theorem witness_PortLegalityDecidesIllegal :
    Instr.push .C ∈ [Instr.push .C, .pushu .C, .pop .P, .popu .P, .peek .P] := by decide
theorem witness_TextExpansion : 3 ≤ 3 ∧ (Line.repeated 3 3 (.init .i) .dash).inputs .w8 = some [cyc 0x1003 0 0] ∧
    1 ≤ 2 ∧ (Line.repeated 1 2 (.push .i) .pop).inputs .w32 = some [cyc 0x8000 1 0xA000, cyc 0x8000 2 0xA000] := by decide

theorem witness_StepRunsBothDecodedCommands :
    (mid (cyc 0x8000 9 0xA000)).pins.rst = false ∧
    decode .P (mid (cyc 0x8000 9 0xA000)).pins.pCmd = .command (.push .P) ∧
    decode .C (mid (cyc 0x8000 9 0xA000)).pins.cCmd = .command (.pop .C) ∧
    (∃ p, exec (.push .P) (mid (cyc 0x8000 9 0xA000)) = .next p) ∧
    ∃ c, exec (.pop .C) (mid (cyc 0x8000 9 0xA000)) = .next c :=
  ⟨by decide, by decide, by decide, ⟨_, rfl⟩, ⟨_, rfl⟩⟩
theorem witness_StepRunsTheOnlyCommand :
    ((mid (cyc 0x8000 9 0)).pins.rst = false ∧ decode .P (mid (cyc 0x8000 9 0)).pins.pCmd = .command (.push .P) ∧
      (mid (cyc 0x8000 9 0)).pins.cCmd = 0x0000#16 ∧ ∃ p, exec (.push .P) (mid (cyc 0x8000 9 0)) = .next p) ∧
    ((mid (cyc 0 0 0xA000)).pins.rst = false ∧ decode .C (mid (cyc 0 0 0xA000)).pins.cCmd = .command (.pop .C) ∧
      (mid (cyc 0 0 0xA000)).pins.pCmd = 0x0000#16 ∧ ∃ c, exec (.pop .C) (mid (cyc 0 0 0xA000)) = .next c) :=
  ⟨⟨by decide, by decide, by decide, ⟨_, rfl⟩⟩, ⟨by decide, by decide, by decide, ⟨_, rfl⟩⟩⟩
theorem witness_IllegalWordIsAnsweredAndInactive :
    ((mid (cyc 0xA000 0 0xA000)).Inv ∧ (mid (cyc 0xA000 0 0xA000)).pins.rst = false ∧
      decode .P (mid (cyc 0xA000 0 0xA000)).pins.pCmd = .illegal .wrongPort) ∧
    ((mid (cyc 0x8000 1 0xF0FF)).Inv ∧ (mid (cyc 0x8000 1 0xF0FF)).pins.rst = false ∧
      decode .C (mid (cyc 0x8000 1 0xF0FF)).pins.cCmd = .illegal .reservedOpcode) := by decide
theorem witness_EveryCycleCompletes : (mid quiet).Inv ∧ (mid quiet).pins.rst = false := by decide
theorem witness_PortEffectsAreDisjoint :
    (decode .P (mid (cyc 0x2000 0 0)).pins.pCmd = .command (.flush .P) ∧
      decode .C (mid (cyc 0x2000 0 0)).pins.cCmd = .command (.nop .C) ∧
      isCtl (.flush .P) = true ∧ ∃ p c, exec (.flush .P) (mid (cyc 0x2000 0 0)) = .next p ∧
        exec (.nop .C) (mid (cyc 0x2000 0 0)) = .next c ∧ p.pStatus ≠ 6#3) ∧
    (decode .P (mid (cyc 0 0 0x1002)).pins.pCmd = .command (.nop .P) ∧
      decode .C (mid (cyc 0 0 0x1002)).pins.cCmd = .command (.init .C 2#8) ∧
      isCtl (.init .C 2#8) = true ∧ ∃ p c, exec (.nop .P) (mid (cyc 0 0 0x1002)) = .next p ∧
        exec (.init .C 2#8) (mid (cyc 0 0 0x1002)) = .next c ∧ c.cStatus ≠ 6#3) ∧
    (decode .P (mid (cyc 0x8000 1 0xA000)).pins.pCmd = .command (.push .P) ∧
      decode .C (mid (cyc 0x8000 1 0xA000)).pins.cCmd = .command (.pop .C) ∧
      isCtl (.push .P) = false ∧ isCtl (.pop .C) = false ∧
      ∃ p c, exec (.push .P) (mid (cyc 0x8000 1 0xA000)) = .next p ∧
        exec (.pop .C) (mid (cyc 0x8000 1 0xA000)) = .next c) :=
  ⟨⟨by decide, by decide, by decide, _, _, rfl, rfl, by decide⟩, ⟨by decide, by decide, by decide, _, _, rfl, rfl, by decide⟩,
    ⟨by decide, by decide, by decide, by decide, _, _, rfl, rfl⟩⟩
theorem witness_ReadDuringWriteReturnsTheOldValue :
    ((packed (cyc 0x9000 9 0xA000)).Inv ∧ (packed (cyc 0x9000 9 0xA000)).Initialized ∧
      (packed (cyc 0x9000 9 0xA000)).Uncorrupted ∧ (packed (cyc 0x9000 9 0xA000)).pins.rst = false ∧
      decode .P (packed (cyc 0x9000 9 0xA000)).pins.pCmd = .command (.pushu .P) ∧
      decode .C (packed (cyc 0x9000 9 0xA000)).pins.cCmd = .command (.pop .C) ∧
      (packed (cyc 0x9000 9 0xA000)).wr ≠ (packed (cyc 0x9000 9 0xA000)).rd ∧
      (packed (cyc 0x9000 9 0xA000)).pushSlot = (packed (cyc 0x9000 9 0xA000)).popSlot) ∧
    nextIs (step (packed (cyc 0x9000 9 0xA000))) (fun t => t.pStatus == 0 && t.cStatus == 0) = true := by decide
theorem witness_CycleEqualsASerialOrder :
    ((packed quiet).Inv ∧ (packed quiet).Initialized ∧ (packed quiet).Uncorrupted ∧
      decode .P 0x8000#16 = .command (.push .P) ∧ decode .C 0xA000#16 = .command (.pop .C) ∧
      clash (.push .P) (.pop .C) = false ∧ (packed quiet).isFull = true) ∧
    ((drained quiet).Inv ∧ (drained quiet).Uncorrupted ∧ decode .C 0xC000#16 = .command (.peek .C) ∧
      clash (.push .P) (.peek .C) = false) ∧
    (st 1 1 1 [] quiet).Inv ∧ (st 1 1 1 [] quiet).cap = 1#8 ∧ (st 1 1 1 [] quiet).wr = (st 1 1 1 [] quiet).rd := by decide
/-- A PUSH beside a POP and beside an ILLEGAL word, and a POP beside a PUSH and beside a query; full, and empty. -/
theorem witness_PortStatusesAreIndependent :
    (nextIs (step (packed (cyc 0x8000 1 0xA000))) (fun t => t.pStatus == 2 && t.cStatus == 0) = true ∧
      nextIs (step (packed (cyc 0x8000 1 0xF0FF))) (fun t => t.pStatus == 2) = true ∧
      nextIs (step (packed (cyc 0x3000 2 0xA000))) (fun t => t.cStatus == 0) = true) ∧
    (packed (cyc 0x8000 1 0xA000)).Inv ∧ (packed (cyc 0x8000 1 0xA000)).Initialized ∧
    (packed (cyc 0x8000 1 0xA000)).pins = cyc 0x8000 1 0xA000 ∧
    (packed (cyc 0x8000 1 0xA000)).isFull = true ∧
    (drained (cyc 0x8000 1 0xA000)).Inv ∧ (drained (cyc 0x8000 1 0xA000)).isEmpty = true := by decide
theorem witness_QueriesSeeTheStartOfTheCycle :
    ((mid (cyc 0x3000 0 0xA000)).Initialized ∧ queryValue (mid (cyc 0x3000 0 0xA000)) (.used .P) = some 2#32 ∧
      isCtl (.pop .C) = false ∧ decode .P (mid (cyc 0x3000 0 0xA000)).pins.pCmd = .command (.used .P) ∧
      decode .C (mid (cyc 0x3000 0 0xA000)).pins.cCmd = .command (.pop .C)) ∧
    (queryValue (mid (cyc 0x8000 1 0x4000)) (.free .C) = some 2#32 ∧
      decode .P (mid (cyc 0x8000 1 0x4000)).pins.pCmd = .command (.push .P) ∧
      decode .C (mid (cyc 0x8000 1 0x4000)).pins.cCmd = .command (.free .C)) ∧
    nextIs (step (mid (cyc 0x3000 0 0xA000))) (fun _ => true) = true ∧
    nextIs (step (mid (cyc 0x8000 1 0x4000))) (fun _ => true) = true := by decide
theorem witness_PushIsVisibleInTheNextCycle :
    (drained quiet).Inv ∧ (drained quiet).Initialized ∧ (drained quiet).isEmpty = true := by decide
theorem witness_ResetCycleZeroesRegistersAndKeepsStorage : (mid { quiet with rst := true }).pins.rst = true := by decide
theorem witness_HeldResetKeepsTheResetState :
    [{ quiet with rst := true }, { quiet with rst := true }] ≠ [] ∧
    (∀ c ∈ [{ quiet with rst := true }, { quiet with rst := true }], c.rst = true) ∧
    (Instr.pop .C).wf = true ∧ needsInit (.pop .C) = true ∧ inConflict (.pop .C) (fresh quiet) = false := by decide
theorem witness_UninitializedOutputsAndQueries :
    ((fresh quiet).cap = 0#8 ∧ (fresh quiet).rd = 0#8 ∧ (fresh quiet).wr = 0#8 ∧ (fresh quiet).otherCtl .P = false ∧
      (fresh quiet).otherCtl .C = false) ∧ (drained quiet).Inv ∧ (drained quiet).Initialized := by decide
theorem witness_IndexAdvancesModuloTwiceTheCapacity :
    validCap Config.reference 128#8 = true ∧ (255#8).toNat < 2 * (128#8).toNat ∧ validCap Config.reference 1#8 = true ∧
    (mid quiet).Inv ∧ nextIs (step (mid quiet)) (fun t => t.cap != 0#8) = true := by decide
theorem witness_SlotIsTheIndexModuloTheCapacity :
    validCap Config.reference 128#8 = true ∧ (packed quiet).Inv ∧ (packed quiet).Initialized ∧
    (packed quiet).wr.toNat = ((packed quiet).rd.toNat + (packed quiet).cap.toNat) % (2 * (packed quiet).cap.toNat) ∧
    (drained quiet).wr = (drained quiet).rd := by decide
theorem witness_UsedCountIsTheIndexDifference : (st 4 6 1 abcd quiet).Inv ∧ (st 4 6 1 abcd quiet).Initialized := by decide
theorem witness_FreeCountWrapsInACorruptedState :
    ((packed quiet).Inv ∧ (packed quiet).usedCount.toNat ≤ (packed quiet).cap.toNat) ∧
    (st 4 1 6 abcd quiet).Inv ∧ (st 4 1 6 abcd quiet).cap.toNat < (st 4 1 6 abcd quiet).usedCount.toNat := by decide
theorem witness_EmptyExactlyWhenNothingIsUsed : (drained quiet).Inv ∧ (mid quiet).Inv ∧ (fresh quiet).Inv := by decide
theorem witness_OccupancyLawsWithinContract :
    (packed quiet).Inv ∧ (packed quiet).Initialized ∧ (packed quiet).Uncorrupted := by decide
theorem witness_ValidCapacitiesArePowersOfTwo : Config.reference.maxCap = 128 := by decide
theorem witness_InitRecordsCapacityAndZeroesIndices :
    (mid (cyc 0 0 0xC000)).otherActive .P = true ∧
    ((mid quiet).otherActive .P = false ∧ validCap (mid quiet).params 129#8 = false ∧
      validCap (mid quiet).params 0#8 = false) ∧
    (mid quiet).otherActive .C = false ∧ validCap (mid quiet).params 128#8 = true := by decide
theorem witness_FailingInitChangesNothing :
    nextIs (exec (.init .P 3#8) (mid quiet)) (fun t => t.statusOn .P != 0#3) = true := by decide
theorem witness_FlushZeroesBothIndices :
    (mid (cyc 0x3000 0 0)).otherActive .C = true ∧ ((fresh quiet).otherActive .P = false ∧ (fresh quiet).cap = 0#8) ∧
    (mid quiet).otherActive .P = false ∧ (mid quiet).cap ≠ 0#8 := by decide
/-- The hypotheses of the clauses CONFLICT, UNINIT and result, on either port. -/
abbrev LadderMet : Prop :=
    ((mid (cyc 0x2000 0 0x2000)).otherCtl .P = true ∧ (mid (cyc 0x2000 0 0x2000)).otherCtl .C = true) ∧
    ((fresh quiet).otherCtl .P = false ∧ (fresh quiet).otherCtl .C = false ∧ (fresh quiet).cap = 0#8) ∧
    ((mid quiet).otherCtl .P = false ∧ (mid quiet).otherCtl .C = false ∧ (mid quiet).cap ≠ 0#8 ∧
      validCap (mid quiet).params (mid quiet).cap = true ∧ (mid quiet).Inv)
theorem witness_ladder : LadderMet := by decide
theorem witness_UsedReturnsTheUsedCount : LadderMet := witness_ladder
theorem witness_FreeReturnsTheFreeCount : LadderMet := witness_ladder
theorem witness_EmptyReturnsWhetherTheIndicesAgree : LadderMet ∧ (drained quiet).wr = (drained quiet).rd :=
  ⟨witness_ladder, rfl⟩
theorem witness_FullReturnsWhetherUsedIsTheCapacity : LadderMet ∧ (packed quiet).isFull = true :=
  ⟨witness_ladder, by decide⟩
theorem witness_PushuStoresTheElementUnchecked : LadderMet ∧ (packed quiet).otherCtl .P = false ∧ (packed quiet).Inv ∧
    (packed quiet).isFull = true := ⟨witness_ladder, by decide⟩
theorem witness_PopuAdvancesUnchecked : LadderMet ∧ (mid quiet).wr ≠ (mid quiet).rd ∧ (drained quiet).otherCtl .C = false ∧
    (drained quiet).cap ≠ 0#8 ∧ (drained quiet).wr = (drained quiet).rd := ⟨witness_ladder, by decide⟩
theorem witness_PeekReturnsTheOldestElementInPlace : LadderMet ∧ (mid quiet).wr ≠ (mid quiet).rd ∧
    (drained quiet).otherCtl .C = false ∧ (drained quiet).cap ≠ 0#8 ∧ (drained quiet).wr = (drained quiet).rd ∧
    (mid quiet).Inv ∧ (mid quiet).Initialized ∧ (mid quiet).isEmpty = false :=
  ⟨witness_ladder, by decide⟩
theorem witness_QueriesRepeatTheirAnswer :
    (mid quiet).Initialized ∧ 0x4000#16 ∈ [0x3000#16, 0x4000#16, 0x5000#16, 0x6000#16] := by decide
/-- Full, not full, and the last free slot. -/
theorem witness_PushStoresTheElementAndAdvancesWr : LadderMet ∧
    ((packed quiet).otherCtl .P = false ∧ (packed quiet).cap ≠ 0#8 ∧
      ((packed quiet).wr - (packed quiet).rd) &&& (2#8 * (packed quiet).cap - 1#8) = (packed quiet).cap ∧
      (packed quiet).Inv ∧ (packed quiet).Initialized ∧ (packed quiet).isFull = true) ∧
    ((st 4 1 4 abcd quiet).otherCtl .P = false ∧ (st 4 1 4 abcd quiet).Inv ∧ (st 4 1 4 abcd quiet).Initialized ∧
      (st 4 1 4 abcd quiet).Uncorrupted ∧ (st 4 1 4 abcd quiet).isFull = false ∧
      validCap (st 4 1 4 abcd quiet).params (st 4 1 4 abcd quiet).cap = true ∧
      ((st 4 1 4 abcd quiet).wr - (st 4 1 4 abcd quiet).rd) &&& (2#8 * (st 4 1 4 abcd quiet).cap - 1#8) ≠
        (st 4 1 4 abcd quiet).cap) := ⟨witness_ladder, by decide⟩
theorem witness_PushFrame :
    nextIs (exec (.push .P) (mid quiet)) (fun t => t.statusOn .P == 0#3) = true ∧
    nextIs (exec (.push .P) (packed quiet)) (fun t => t.statusOn .P != 0#3) = true ∧
    nextIs (exec (.pushu .P) (packed quiet)) (fun t => t.statusOn .P == 0#3) = true := by decide
/-- Empty, not empty, and the last element. -/
theorem witness_PopReturnsTheOldestElement : LadderMet ∧
    ((drained quiet).otherCtl .C = false ∧ (drained quiet).cap ≠ 0#8 ∧ (drained quiet).wr = (drained quiet).rd ∧
      (drained quiet).Inv ∧ (drained quiet).Initialized) ∧
    ((st 4 7 0 abcd quiet).otherCtl .C = false ∧ (st 4 7 0 abcd quiet).wr ≠ (st 4 7 0 abcd quiet).rd ∧
      validCap (st 4 7 0 abcd quiet).params (st 4 7 0 abcd quiet).cap = true ∧ (st 4 7 0 abcd quiet).Inv ∧
      (st 4 7 0 abcd quiet).Initialized ∧ (st 4 7 0 abcd quiet).Uncorrupted ∧
      (st 4 7 0 abcd quiet).isEmpty = false) := ⟨witness_ladder, by decide⟩
theorem witness_PopAndPeekFrame :
    nextIs (exec (.pop .C) (mid quiet)) (fun t => t.statusOn .C == 0#3) = true ∧
    nextIs (exec (.pop .C) (drained quiet)) (fun t => t.statusOn .C != 0#3) = true ∧
    nextIs (exec (.popu .C) (drained quiet)) (fun t => t.statusOn .C == 0#3) = true ∧
    nextIs (exec (.peek .C) (mid quiet)) (fun t => t.statusOn .C == 0#3) = true := by decide
theorem witness_ControlAndQueryFrame :
    ((∀ x, Instr.flush .P ∉ [Instr.push x, .pushu x, .pop x, .popu x, .peek x]) ∧
      nextIs (exec (.flush .P) (mid quiet)) (fun t => t.statusOn .P == 0#3) = true) ∧
    ((∀ x, Instr.init .P 3#8 ∉ [Instr.push x, .pushu x, .pop x, .popu x, .peek x]) ∧
      nextIs (exec (.init .P 3#8) (mid quiet)) (fun t => t.statusOn .P != 0#3) = true) ∧
    ((∀ x, Instr.used .C ∉ [Instr.push x, .pushu x, .pop x, .popu x, .peek x]) ∧ isCtl (.used .C) = false ∧
      nextIs (exec (.used .C) (mid quiet)) (fun _ => true) = true) :=
  ⟨⟨fun x => by cases x <;> decide, by decide⟩, ⟨fun x => by cases x <;> decide, by decide⟩,
    ⟨fun x => by cases x <;> decide, by decide, by decide⟩⟩
theorem witness_PeekRepeatsItsAnswer :
    nextIs (exec (.peek .C) (mid quiet)) (fun _ => true) = true ∧
    ((mid quiet).Inv ∧ (mid quiet).Initialized ∧ (mid quiet).Uncorrupted ∧ (mid quiet).isEmpty = false ∧
      0x8000#16 ∈ [0x0000#16, 0x3000#16, 0x4000#16, 0x5000#16, 0x6000#16, 0x8000#16]) ∧
    (drained quiet).Initialized ∧ (drained quiet).isEmpty = true := by decide
theorem witness_StatusPrecedence :
    (Instr.push .C).wf = false ∧
    ((Instr.push .P).wf = true ∧ inConflict (.push .P) (packed (cyc 0x8000 1 0x2000)) = true) ∧
    (inConflict (.push .P) (fresh quiet) = false ∧ (fresh quiet).cap = 0#8 ∧ needsInit (.push .P) = true) ∧
    (inConflict (.push .P) (packed quiet) = false ∧ (packed quiet).cap ≠ 0#8 ∧
      ownError (packed quiet) (.push .P) = some .overflow) ∧
    ((mid quiet).Inv ∧ inConflict (.push .P) (mid quiet) = false ∧ ownError (mid quiet) (.push .P) = none) := by decide
theorem witness_ConflictStopsBothPorts :
    ((mid (cyc 0x2000 0 0x2000)).pins.rst = false ∧
      decode .P (mid (cyc 0x2000 0 0x2000)).pins.pCmd = .command (.flush .P) ∧
      decode .C (mid (cyc 0x2000 0 0x2000)).pins.cCmd = .command (.flush .C) ∧ isCtl (.flush .P) = true) ∧
    ((mid (cyc 0x8000 1 0x1003)).pins.rst = false ∧
      decode .P (mid (cyc 0x8000 1 0x1003)).pins.pCmd = .command (.push .P) ∧
      decode .C (mid (cyc 0x8000 1 0x1003)).pins.cCmd = .command (.init .C 3#8) ∧ isCtl (.init .C 3#8) = true) ∧
    (mid quiet).decoded .C = .command (.nop .C) ∧
    (mid (cyc 0x2000 0 0xA001)).decoded .C = .illegal .immediateNonzero := by decide
theorem witness_ErrorsLeaveTheBlockUnchanged :
    nextIs (exec (.pop .C) (drained quiet)) (fun t => t.statusOn .C != 0#3) = true := by decide
theorem witness_StatusCodesByCommand :
    nextIs (exec (.push .C) (mid quiet)) (fun t => t.statusOn .C == 4#3) = true ∧ (mid quiet).pins.rst = false ∧
    nextIs (step (mid quiet)) (fun _ => true) = true := by decide
theorem witness_ViolatedIsSetExactlyByTheSevenCases :
    (mid { quiet with rst := true }).pins.rst = true ∧
    nextIs (step (mid { quiet with rst := true })) (fun _ => true) = true ∧
    nextIs (step (mid quiet)) (fun t => !t.violated) = true ∧
    nextIs (step (packed (cyc 0x9000 9 0))) (fun t => t.violated) = true ∧
    nextIs (step (packed (cyc 0x9000 9 0xB000))) (fun t => !t.violated) = true ∧
    nextIs (step (drained (cyc 0 0 0xB000))) (fun t => t.violated) = true ∧
    nextIs (step (drained (cyc 0 0 0xC000))) (fun t => t.violated) = true ∧
    nextIs (step (st 4 1 6 abcd quiet)) (fun t => t.violated) = true := by decide
theorem witness_UncheckedMisuseCorners :
    ((packed quiet).Inv ∧ (packed quiet).Initialized ∧ (packed quiet).otherCtl .P = false ∧
      (packed quiet).isFull = true ∧ (packed quiet).cap ≠ 1#8) ∧
    ((st 1 0 1 [] quiet).Inv ∧ (st 1 0 1 [] quiet).isFull = true ∧ (st 1 0 1 [] quiet).cap = 1#8) ∧
    ((drained quiet).Inv ∧ (drained quiet).otherCtl .C = false ∧ (drained quiet).isEmpty = true) ∧
    ((st 1 1 1 [] quiet).Inv ∧ (st 1 1 1 [] quiet).isEmpty = true) := by decide
theorem witness_CycleRefinesTheQueue :
    ((packed (cyc 0x9000 9 0xA000)).Inv ∧ (packed (cyc 0x9000 9 0xA000)).Initialized ∧
      (packed (cyc 0x9000 9 0xA000)).Uncorrupted ∧ (packed (cyc 0x9000 9 0xA000)).pins.rst = false ∧
      decode .P (packed (cyc 0x9000 9 0xA000)).pins.pCmd = .command (.pushu .P) ∧
      decode .C (packed (cyc 0x9000 9 0xA000)).pins.cCmd = .command (.pop .C) ∧
      isCtl (.pushu .P) = false ∧ isCtl (.pop .C) = false ∧ (packed (cyc 0x9000 9 0xA000)).violated = false ∧
      (packed (cyc 0x9000 9 0xA000)).queue = [0xB#32, 0xC#32, 0xD#32, 0xA#32]) ∧
    nextIs (step (packed (cyc 0x9000 9 0xA000)))
      (fun t => !t.violated && t.queue == [0xC#32, 0xD#32, 0xA#32, 9#32]) = true ∧
    (packed (cyc 0x8000 9 0)).queue.length = (packed (cyc 0x8000 9 0)).cap.toNat ∧
    nextIs (step (packed (cyc 0x8000 9 0))) (fun t => !t.violated) = true ∧
    (drained (cyc 0 0 0xA000)).queue = [] ∧
    nextIs (step (drained (cyc 0 0 0xA000))) (fun t => !t.violated) = true := by decide
theorem witness_FreshBufferHoldsExactlyItsCapacity :
    (st 2 0 0 [] quiet).Inv ∧ (st 2 0 0 [] quiet).Initialized ∧ (st 2 0 0 [] quiet).rd = 0#8 ∧
    (st 2 0 0 [] quiet).wr = 0#8 ∧ [7#32, 9#32].length = (st 2 0 0 [] quiet).cap.toNat ∧ 1 < [7#32, 9#32].length := by decide
theorem witness_StepKeepsTheInvariant :
    (packed (cyc 0x9000 9 0xB000)).Inv ∧ nextIs (step (packed (cyc 0x9000 9 0xB000))) (fun _ => true) = true := by decide
theorem witness_StepKeepsUsedWithinCapacity :
    (packed (cyc 0x9000 9 0xB000)).Inv ∧ (packed (cyc 0x9000 9 0xB000)).ContractBound ∧
    nextIs (step (packed (cyc 0x9000 9 0xB000))) (fun t => !t.violated) = true := by decide
theorem witness_OnlyPushesWriteStorage :
    ((mid (cyc 0x2000 0 0)).decoded .P ≠ .command (.push .P) ∧ (mid (cyc 0x2000 0 0)).decoded .P ≠ .command (.pushu .P) ∧
      nextIs (step (mid (cyc 0x2000 0 0))) (fun _ => true) = true) ∧
    (mid { cyc 0x8000 1 0 with rst := true }).pins.rst = true ∧
    nextIs (step (mid { cyc 0x8000 1 0 with rst := true })) (fun _ => true) = true := by decide
theorem witness_ResponsesFitTheElementWidth :
    nextIs (step (mid (cyc 0 0 0xA000))) (fun _ => true) = true := by decide

end Sys2Proof.Tests
end

