-- ==== Sys2Proof/Proofs/State.lean ====
section
/-! PROOFS. The invariants of the state (spec 10_state.md): what a step keeps of the structural invariant, the slot storage,
the data signals and the parameters. -/

namespace Sys2Proof.Machine

/-! ### One command -/

/-- Only PUSH and PUSHU on port P write the storage (10_state.md R25). -/
theorem Does.mem_eq_of_not_push {i : Instr} {s t : State} (h : Does s i t) (h₁ : i ≠ .push .P) (h₂ : i ≠ .pushu .P) :
    t.mem = s.mem := by
  cases h with
  | pushes => exact absurd rfl h₁
  | pushesUnchecked => exact absurd rfl h₂
  | answers => exact State.respond_mem ..
  | inits | flushes => simp only [State.respond_mem, State.zeroIndices_mem, State.setCap_mem]
  | pops | popsUnchecked | popsEmpty | peeksEmpty => rfl

/-- The data a command answers with is `P_WIDTH` bits wide: a slot's element, a drawn element, a query's value or 0. -/
theorem Does.fit_rdataOn {i : Instr} {s t : State} (h : Does s i t) :
    fit s.params.width (t.rdataOn i.port) = t.rdataOn i.port := by
  cases h with
  | answers st d hd he => rwa [State.rdataOn_respond]
  | inits x | flushes x => simp only [Instr.port, State.rdataOn_respond, fit_zero]
  | pushes | pushesUnchecked => exact fit_zero _
  | pops | popsUnchecked => exact fit_readSlot s _
  | popsEmpty | peeksEmpty => exact fit_drawnElem s

/-! ### One port's side and one step -/

theorem runPort_fit_rdataOn {x : Port} {s t : State} (h : runPort x s = .next t) :
    fit s.params.width (t.rdataOn x) = t.rdataOn x := by
  obtain ⟨i, rfl, hd, -⟩ := runPort_does h
  exact hd.fit_rdataOn

theorem runPort_mem_eq_of_not_push {x : Port} {s t : State} (h : runPort x s = .next t)
    (h₁ : s.decoded x ≠ .command (.push .P)) (h₂ : s.decoded x ≠ .command (.pushu .P)) : t.mem = s.mem := by
  obtain ⟨i, -, hd, hi | rfl⟩ := runPort_does h
  · exact hd.mem_eq_of_not_push (by rintro rfl; exact h₁ hi) (by rintro rfl; exact h₂ hi)
  · exact State.respond_mem ..

/-- The consumer's side never writes the storage. -/
theorem runPort_C_mem {s c : State} (h : runPort .C s = .next c) : c.mem = s.mem := by
  obtain ⟨i, hx, hd, -⟩ := runPort_does h
  obtain ⟨-, -, -, hm, -⟩ := hd.consumer_frame hx
  exact hm

/-- A step keeps the parameters and uses up one cycle's inputs. -/
theorem step_params_inputs {s t : State} (h : step s = .next t) : t.params = s.params ∧ t.inputs = s.inputs.tail := by
  obtain ⟨-, rfl⟩ | ⟨-, p, c, -, -, rfl⟩ := step_next h <;> exact ⟨rfl, rfl⟩

/-- Both data signals are `P_WIDTH` bits wide after a step, those of a reset cycle too. -/
theorem step_fit_rdata {s t : State} (h : step s = .next t) :
    fit s.params.width t.pRdata = t.pRdata ∧ fit s.params.width t.cRdata = t.cRdata := by
  obtain ⟨-, rfl⟩ | ⟨-, p, c, hP, hC, rfl⟩ := step_next h
  · exact ⟨fit_fit _ _, fit_fit _ _⟩
  · exact ⟨runPort_fit_rdataOn hP, runPort_fit_rdataOn hC⟩

/-- A step without a push on port P, or with reset, leaves the storage as it is. -/
theorem step_mem_eq_of_not_push {s t : State} (h : step s = .next t)
    (hn : s.pins.rst = true ∨ (s.decoded .P ≠ .command (.push .P) ∧ s.decoded .P ≠ .command (.pushu .P))) :
    t.mem = s.mem := by
  obtain ⟨-, rfl⟩ | ⟨hr, p, c, hP, hC, rfl⟩ := step_next h
  · rfl
  · obtain hr' | ⟨h₁, h₂⟩ := hn
    · rw [hr] at hr'; cases hr'
    · calc (closeCycle s p c).mem = commit s.mem p.mem c.mem := rfl
        _ = s.mem := by rw [runPort_mem_eq_of_not_push hP h₁ h₂, runPort_C_mem hC, commit_self_left]

/-! ### The structural invariant -/

/-- The invariant of a state without capacity: the indices are 0, and the storage is in order. -/
theorem State.Inv.of_uninitialized {t : State} (hc : t.cap = 0#8) (hr : t.rd = 0#8) (hw : t.wr = 0#8)
    (hm : t.StorageOk) : t.Inv :=
  ⟨.inl hc, ⟨fun _ => ⟨hr, hw⟩, fun hn => absurd hc hn⟩, hm⟩

/-- The invariant of a state with a valid capacity: the indices are below `2N`, and the storage is in order. -/
theorem State.Inv.of_validCap {t : State} (hc : validCap t.params t.cap = true) (hr : t.rd.toNat < 2 * t.cap.toNat)
    (hw : t.wr.toNat < 2 * t.cap.toNat) (hm : t.StorageOk) : t.Inv :=
  ⟨.inr hc, ⟨fun h0 => absurd h0 (validCap_ne_zero hc), fun _ => ⟨hr, hw⟩⟩, hm⟩

theorem State.Inv.storageOk {s : State} (h : s.Inv) : s.StorageOk := h.2.2

/-- Unchanged storage stays in order. -/
theorem State.StorageOk.congr {s t : State} (hs : s.StorageOk) (hp : t.params = s.params) (hm : t.mem = s.mem) :
    t.StorageOk := by
  rwa [State.StorageOk, hp, hm]

/-- The element of a push into a slot that exists keeps the storage in order. -/
theorem State.StorageOk.write {s t : State} {k : Nat} (hs : s.StorageOk) (hk : k < s.params.maxCap)
    (hp : t.params = s.params) (hm : t.mem = s.mem.write k s.pushOperand) : t.StorageOk := by
  rw [State.StorageOk, hp, hm]
  exact ⟨Memory.write_wf _ _ hs.1, Memory.write_inStorage hs.2 hk (fit_pushOperand s)⟩

/-- INIT and FLUSH leave a valid capacity, both indices 0, and the storage as it was. -/
theorem ControlEffect.inv {s t : State} (h : ControlEffect s t) (hs : s.Inv) (hp : t.params = s.params) : t.Inv := by
  obtain ⟨hcap, hr, hw, hm⟩ := h
  have hv : validCap t.params t.cap = true := by
    rw [hp]
    obtain ⟨n, hn, rfl⟩ | ⟨hi, he⟩ := hcap
    · exact hn
    · rw [he]; exact hs.valid hi
  have hpos : (0#8).toNat < 2 * t.cap.toNat := Nat.mul_pos two_pos (cap_pos hv)
  exact .of_validCap hv (hr ▸ hpos) (hw ▸ hpos) (hs.storageOk.congr hp hm)

/-- An index that stays or advances modulo `2N` stays below `2N` (40_index_occupancy.md R91). -/
theorem index_lt_of_stays_or_advances {p : Params} {c x y : Byte} (hv : validCap p c = true)
    (hx : x.toNat < 2 * c.toNat) (hy : y = x ∨ y = nextIndex c x) : y.toNat < 2 * c.toNat := by
  obtain rfl | rfl := hy
  · exact hx
  · exact nextIndex_lt x hv

/-- A state whose capacity is kept, whose indices stay or advance, and advance only while initialized, meets the
invariant where its storage is in order. -/
theorem State.Inv.of_indices {s t : State} (hs : s.Inv) (hp : t.params = s.params) (hc : t.cap = s.cap)
    (hr : t.rd = s.rd ∨ (s.Initialized ∧ t.rd = nextIndex s.cap s.rd))
    (hw : t.wr = s.wr ∨ (s.Initialized ∧ t.wr = nextIndex s.cap s.wr)) (hm : t.StorageOk) : t.Inv := by
  obtain ⟨h0, hlt⟩ := hs.2.1
  by_cases hi : s.cap = 0#8
  · obtain ⟨hr0, hw0⟩ := h0 hi
    have hstay : ∀ {q : Prop}, ¬ (s.Initialized ∧ q) := fun h => h.1 hi
    exact .of_uninitialized (hc.trans hi) ((hr.resolve_right hstay).trans hr0) ((hw.resolve_right hstay).trans hw0) hm
  · obtain ⟨hrlt, hwlt⟩ := hlt hi
    have hv := hs.valid hi
    refine .of_validCap (by rwa [hp, hc]) ?_ ?_ hm <;> rw [hc]
    · exact index_lt_of_stays_or_advances hv hrlt (hr.imp_right And.right)
    · exact index_lt_of_stays_or_advances hv hwlt (hw.imp_right And.right)

/-- Every step keeps the structural invariant, whatever is presented. -/
theorem step_inv {s t : State} (hs : s.Inv) (h : step s = .next t) : t.Inv := by
  obtain ⟨hp, -⟩ := step_params_inputs h
  obtain ⟨-, rfl⟩ | ⟨hrst, -⟩ := step_next h
  · exact .of_uninitialized rfl rfl rfl hs.storageOk
  · obtain hctl | ⟨hc, ⟨hw, hm⟩ | ⟨hi, hk, hw, hm⟩, hr⟩ := step_effect h hrst
    · exact ControlEffect.inv hctl hs hp
    · exact hs.of_indices hp hc hr (.inl hw) (hs.storageOk.congr hp hm)
    · exact hs.of_indices hp hc hr (.inr ⟨hi, hw⟩) (hs.storageOk.write hk hp hm)

/-! ### The obligations -/

/-- Settles O55: a step is a reset, an INIT or FLUSH, or a push side joined with a pop side, and each keeps the invariant. -/
theorem stepKeepsTheInvariant : Obligations.StepKeepsTheInvariant :=
  fun _ _ hs h => step_inv hs h

/-- Settles O57: the storage list itself is kept, so every slot reads alike. -/
theorem onlyPushesWriteStorage : Obligations.OnlyPushesWriteStorage :=
  fun _ _ h hn => State.readSlot_congr (step_params_inputs h).1 (step_mem_eq_of_not_push h hn)

/-- Settles O58, from what each port's side answers with and from the fields no cycle assigns. -/
theorem responsesFitTheElementWidth : Obligations.ResponsesFitTheElementWidth := by
  intro s t h
  obtain ⟨hP, hC⟩ := step_fit_rdata h
  exact ⟨hP, hC, step_params_inputs h⟩

/-- Settles O19: the registers by definition, and an unlisted slot reads as its free value. -/
theorem resetStateHoldsTheResetValues : Obligations.ResetStateHoldsTheResetValues :=
  ⟨rfl, rfl, rfl, fun _ => rfl⟩

/-- Settles O54: nothing is used of a capacity of 0, and no slot is listed. -/
theorem resetMeetsTheInvariants : Obligations.ResetMeetsTheInvariants :=
  ⟨.of_uninitialized rfl rfl rfl ⟨reset_mem_wf, rfl⟩, fun _ => by decide, rfl⟩

end Sys2Proof.Machine
end

