-- ==== Sys2Proof/Proofs/Memory.lean ====
section
/-! PROOFS. The cycle of spec 20_memory.md: the two ports' commands on the start-of-cycle state, their disjoint effects, the
serial order a cycle equals, and the queue it refines. -/

namespace Sys2Proof.Machine

/-! ### Joining the two ports -/

theorem commit_comm {α : Type} [DecidableEq α] {old p c : α} (h : p = old ∨ c = old) :
    commit old p c = commit old c p := by
  obtain rfl | rfl := h
  · rw [commit_self_left, commit_self_right]
  · rw [commit_self_left, commit_self_right]

/-- The joined block in one equation per register (20_memory.md R60). -/
theorem joinPorts_block (s p c : State) : (joinPorts s p c).block =
    (commit s.cap p.cap c.cap, commit s.rd p.rd c.rd, commit s.wr p.wr c.wr, commit s.mem p.mem c.mem) := rfl

theorem State.block_eq_iff {s t : State} :
    t.block = s.block ↔ t.cap = s.cap ∧ t.rd = s.rd ∧ t.wr = s.wr ∧ t.mem = s.mem := by
  simp [State.block]

/-- A consumer that leaves the block as it is leaves it to the producer. -/
theorem joinPorts_block_left {s p c : State} (h : c.block = s.block) : (joinPorts s p c).block = p.block := by
  obtain ⟨h₁, h₂, h₃, h₄⟩ := State.block_eq_iff.mp h
  rw [joinPorts_block, h₁, h₂, h₃, h₄]
  simp only [commit_self_right, State.block]

/-- A producer that leaves the block as it is leaves it to the consumer. -/
theorem joinPorts_block_right {s p c : State} (h : p.block = s.block) : (joinPorts s p c).block = c.block := by
  obtain ⟨h₁, h₂, h₃, h₄⟩ := State.block_eq_iff.mp h
  rw [joinPorts_block, h₁, h₂, h₃, h₄]
  simp only [commit_self_left, State.block]

/-- A side of a cycle that is not active keeps the block. -/
theorem runPort_inactive_block {x : Port} {s t : State} (ha : s.otherActive x = false)
    (h : runPort x.other s = .next t) : t.block = s.block := by
  obtain ⟨st, rfl⟩ := runPort_inactive ha h
  exact State.respond_block ..

/-- The two sides of a cycle meet in no state element, so they can be joined in either order (R61). -/
theorem joinPorts_block_comm {s p c : State} (hP : runPort .P s = .next p) (hC : runPort .C s = .next c) :
    (joinPorts s p c).block = (joinPorts s c p).block := by
  obtain ⟨iP, hxP, hdP, -⟩ := runPort_does hP
  obtain ⟨iC, hxC, hdC, -⟩ := runPort_does hC
  obtain ⟨hcap, hrd, -⟩ | ⟨-, ha⟩ := hdP.producer_effect hxP
  · obtain ⟨-, hwr, hmem, -⟩ | ⟨-, ha⟩ := hdC.consumer_effect hxC
    · rw [joinPorts_block, joinPorts_block, commit_comm (.inl hcap), commit_comm (.inl hrd), commit_comm (.inr hwr),
        commit_comm (.inr hmem)]
    · have hp := runPort_inactive_block (x := .C) ha hP
      rw [joinPorts_block_right hp, joinPorts_block_left hp]
  · have hc := runPort_inactive_block (x := .P) ha hC
    rw [joinPorts_block_left hc, joinPorts_block_right hc]

/-! ### Conflict and disjointness -/

/-- A command's meaning is the ladder of R154 over a rule of its own, but for NOP. -/
theorem exec_eq_guarded {i : Instr} (ha : isActive i = true) (s : State) : ∃ go, exec i s = guarded i s go := by
  cases i with
  | nop => cases ha
  | _ => exact ⟨_, rfl⟩

/-- INIT or FLUSH that did not answer CONFLICT had NOP on the other port, or a word that is no command (R155). -/
theorem otherActive_eq_false_of_ctl {x : Port} {i : Instr} {s t : State} (hi : s.decoded x = .command i)
    (hc : isCtl i = true) (h : exec i s = .next t) (hs : t.statusOn x ≠ 6#3) : s.otherActive x = false := by
  obtain rfl := decode_port hi
  obtain ⟨hw, ha⟩ : i.wf = true ∧ isActive i = true := by cases i <;> cases hc <;> exact ⟨rfl, rfl⟩
  rw [← inConflict_of_ctl hc ha, ← Bool.not_eq_true]
  intro hn
  obtain ⟨go, he⟩ := exec_eq_guarded ha s
  rw [he, guarded_conflict hw hn] at h
  cases h
  exact hs (State.statusOn_respond ..)

theorem eq_nop_of_otherActive_eq_false {x : Port} {j : Instr} {s : State} (hj : s.decoded x.other = .command j)
    (ha : s.otherActive x = false) : j = .nop x.other := by
  have hx := decode_port hj
  rw [State.otherActive, hj] at ha
  cases j with
  | nop y => obtain rfl := hx; rfl
  | _ => cases ha

/-- INIT or FLUSH that takes effect has the block to itself (R61). -/
theorem ctl_excludes_other {x : Port} {i j : Instr} {s t u : State} (hi : s.decoded x = .command i)
    (hj : s.decoded x.other = .command j) (ht : exec i s = .next t) (hu : exec j s = .next u) (hc : isCtl i = true)
    (hs : t.statusOn x ≠ 6#3) : j = .nop x.other ∧ u.block = s.block := by
  have ha := otherActive_eq_false_of_ctl hi hc ht hs
  exact ⟨eq_nop_of_otherActive_eq_false hj ha, runPort_inactive_block ha ((runPort_command hj).trans hu)⟩

/-! ### Every cycle completes -/

theorem runPort_answers (x : Port) {s : State} (h : s.Inv) : ∃ t, runPort x s = .next t := by
  cases hd : s.decoded x with
  | command i => rw [runPort_command hd]; exact exec_answers i h
  | illegal r => exact ⟨_, runPort_illegal hd⟩

/-- Every effect carries a status of the table of R151 on the command's own port. -/
theorem Does.statusOn_eq_code {i : Instr} {s t : State} (h : Does s i t) :
    ∃ st : Status, t.statusOn i.port = st.code := by
  cases h with
  | answers _ st => exact ⟨st, State.statusOn_respond ..⟩
  | inits | flushes => exact ⟨.ok, State.statusOn_respond ..⟩
  | pushes | pushesUnchecked | pops | popsUnchecked | popsEmpty | peeksEmpty => exact ⟨.ok, rfl⟩

theorem runPort_statusOn_eq_code {x : Port} {s t : State} (h : runPort x s = .next t) :
    ∃ st : Status, t.statusOn x = st.code := by
  obtain ⟨i, rfl, hd, -⟩ := runPort_does h
  exact hd.statusOn_eq_code

/-- From a state that meets the invariant a step answers a next state (R64). -/
theorem step_answers {s : State} (h : s.Inv) : ∃ t, step s = .next t := by
  by_cases hr : s.pins.rst = true
  · exact ⟨_, step_reset hr⟩
  · obtain ⟨p, hp⟩ := runPort_answers .P h
    obtain ⟨c, hc⟩ := runPort_answers .C h
    exact ⟨_, step_ports (by simpa using hr) hp hc⟩

/-! ### A cycle with one command -/

/-- Joining a producer's result with a consumer's NOP changes the consumer's response alone. -/
theorem joinPorts_nop_C {i : Instr} {s p : State} (h : Does s i p) (hx : i.port = .P) :
    joinPorts s p (s.respond .C .ok 0#32) = { p with cStatus := 0#3, cRdata := 0#32 } := by
  obtain ⟨hp, hv, hin, -⟩ := h.producer_frame hx
  simp only [joinPorts, State.respond, commit_self_right, ← hp, ← hv, ← hin, Status.code]

/-- Joining a consumer's result with a producer's NOP changes the producer's response alone. -/
theorem joinPorts_nop_P {i : Instr} {s c : State} (h : Does s i c) (hx : i.port = .C) :
    joinPorts s (s.respond .P .ok 0#32) c = { c with pStatus := 0#3, pRdata := 0#32 } := by
  obtain ⟨hp, hv, hin, -⟩ := h.consumer_frame hx
  simp only [joinPorts, State.respond, commit_self_left, ← hp, ← hv, ← hin, Status.code]

/-- A port that presents the word 0 presents NOP. -/
theorem runPort_nop {x : Port} {s : State} (h : s.pins.cmd x = 0#16) : runPort x s = .next (s.respond x .ok 0#32) :=
  (runPort_command (by rw [State.decoded, h, decode_nop])).trans (exec_nop x s)

theorem step_producer_alone {s p : State} {i : Instr} (hr : s.pins.rst = false)
    (hi : decode .P s.pins.pCmd = .command i) (hz : s.pins.cCmd = 0x0000#16) (hp : exec i s = .next p) :
    step s = .next (s.recordViolations { p with cStatus := 0#3, cRdata := 0#32 }).nextInputs := by
  rw [step_ports hr ((runPort_command hi).trans hp) (runPort_nop (x := .C) hz), closeCycle,
    joinPorts_nop_C (exec_does hp) (decode_port hi)]

theorem step_consumer_alone {s c : State} {i : Instr} (hr : s.pins.rst = false)
    (hi : decode .C s.pins.cCmd = .command i) (hz : s.pins.pCmd = 0x0000#16) (hc : exec i s = .next c) :
    step s = .next (s.recordViolations { c with pStatus := 0#3, pRdata := 0#32 }).nextInputs := by
  rw [step_ports hr (runPort_nop (x := .P) hz) ((runPort_command hi).trans hc), closeCycle,
    joinPorts_nop_P (exec_does hc) (decode_port hi)]

/-! ### A decoded command is legal on its port -/

/-- The opcode map keeps to R75 where the port tests of the decoder passed. -/
theorem commandOf_wf {x : Port} {opc : BitVec 4} {imm : Byte} {i : Instr} (h : commandOf x opc imm = .command i)
    (hP : ¬ ((opc = 0x8#4 ∨ opc = 0x9#4) ∧ x ≠ .P))
    (hC : ¬ ((opc = 0xA#4 ∨ opc = 0xB#4 ∨ opc = 0xC#4) ∧ x ≠ .C)) : i.wf = true := by
  unfold commandOf at h
  split at h <;> cases h <;> simp_all [Instr.wf, BitVec.toNat_eq]

/-- A decoded command is well-formed (30_encoding.md R75, R76). -/
theorem decode_wf {x : Port} {w : Cmd} {i : Instr} (h : decode x w = .command i) : i.wf = true := by
  unfold decode at h
  split_ifs at h with _ _ _ hP hC
  exact commandOf_wf h hP hC

/-! ### The rule of a command, its ladder passed -/

/-- The state a command's own rule leads to once the ladder of R60 is passed: what a legal command without conflict does
in an initialized state. `exec_eq_ownRule` ties it to `exec`. -/
def ownRule (i : Instr) (s : State) : State :=
  match i with
  | .nop x => s.respond x .ok 0#32
  | .init x c =>
    if validCap s.params c then ((s.setCap c).zeroIndices).respond x .ok 0#32 else s.respond x .invalidCapacity 0#32
  | .flush x => s.zeroIndices.respond x .ok 0#32
  | .used x => s.respond x .ok (zextCount s.usedCount)
  | .free x => s.respond x .ok (zextCount s.freeCount)
  | .empty x => s.respond x .ok (zextBool s.isEmpty)
  | .full x => s.respond x .ok (zextBool s.isFull)
  | .push x => if s.isFull then s.respond x .overflow 0#32 else s.pushed x
  | .pushu x => s.pushed x
  | .pop x => if s.isEmpty then s.respond x .underflow 0#32 else s.popped x
  | .popu x => if s.isEmpty then (s.advanceRd.countDraw).respond x .ok s.drawnElem else s.popped x
  | .peek x =>
    if s.isEmpty then s.countDraw.respond x .ok s.drawnElem else s.respond x .ok (s.readSlot s.popSlot.toNat)

theorem exec_eq_ownRule {i : Instr} {s : State} (hs : s.Inv) (hi : s.Initialized) (hw : i.wf = true)
    (hc : inConflict i s = false) : exec i s = .next (ownRule i s) := by
  have hv := hs.valid hi
  have pass : ∀ go, guarded i s go = go := fun go => guarded_pass hw hc fun _ => hi
  have slot : ∀ x go, withSlot s (slotOf s.cap x) go = go := fun x go => withSlot_slotOf hv
  cases i with
  | nop x => rfl
  | flush x | used x | free x | empty x | full x => exact pass _
  | pushu x => exact (pass _).trans (slot _ _)
  | init x c => rw [exec_init, pass, ownRule]; split <;> rfl
  | push x => rw [exec_push, pass, State.pushSlot, slot, ownRule]; split <;> rfl
  | pop x => rw [exec_pop, pass, State.popSlot, slot, ownRule]; split <;> rfl
  | popu x => rw [exec_popu, pass, State.popSlot, slot, ownRule]; split <;> rfl
  | peek x => rw [exec_peek, pass, State.popSlot, slot, ownRule]; split <;> rfl

/-! ### What a rule of its own keeps -/

@[simp] theorem State.pushed_params (s : State) (x : Port) : (s.pushed x).params = s.params := State.respond_params ..
@[simp] theorem State.pushed_inputs (s : State) (x : Port) : (s.pushed x).inputs = s.inputs := State.respond_inputs ..
@[simp] theorem State.pushed_cap (s : State) (x : Port) : (s.pushed x).cap = s.cap := State.respond_cap ..
@[simp] theorem State.pushed_rd (s : State) (x : Port) : (s.pushed x).rd = s.rd := State.respond_rd ..
@[simp] theorem State.pushed_wr (s : State) (x : Port) : (s.pushed x).wr = nextIndex s.cap s.wr := State.respond_wr ..
@[simp] theorem State.pushed_mem (s : State) (x : Port) :
    (s.pushed x).mem = s.mem.write s.pushSlot.toNat s.pushOperand := State.respond_mem ..
@[simp] theorem State.pushed_draws (s : State) (x : Port) : (s.pushed x).draws = s.draws := State.respond_draws ..
@[simp] theorem State.popped_params (s : State) (x : Port) : (s.popped x).params = s.params := State.respond_params ..
@[simp] theorem State.popped_inputs (s : State) (x : Port) : (s.popped x).inputs = s.inputs := State.respond_inputs ..
@[simp] theorem State.popped_cap (s : State) (x : Port) : (s.popped x).cap = s.cap := State.respond_cap ..
@[simp] theorem State.popped_rd (s : State) (x : Port) : (s.popped x).rd = nextIndex s.cap s.rd := State.respond_rd ..
@[simp] theorem State.popped_wr (s : State) (x : Port) : (s.popped x).wr = s.wr := State.respond_wr ..
@[simp] theorem State.popped_mem (s : State) (x : Port) : (s.popped x).mem = s.mem := State.respond_mem ..
@[simp] theorem State.popped_draws (s : State) (x : Port) : (s.popped x).draws = s.draws := State.respond_draws ..

@[simp] theorem ownRule_params (i : Instr) (s : State) : (ownRule i s).params = s.params := by
  cases i <;> simp [ownRule, apply_ite State.params]

@[simp] theorem ownRule_inputs (i : Instr) (s : State) : (ownRule i s).inputs = s.inputs := by
  cases i <;> simp [ownRule, apply_ite State.inputs]

@[simp] theorem ownRule_pushOperand (i : Instr) (s : State) : (ownRule i s).pushOperand = s.pushOperand := by
  simp [State.pushOperand, State.pins]

/-- An initialized block stays so: INIT records only valid capacities. -/
theorem ownRule_initialized (i : Instr) {s : State} (h : s.Initialized) : (ownRule i s).Initialized := by
  cases i with
  | init x c =>
    simp only [ownRule]
    split
    · next hv => simpa [State.Initialized] using validCap_ne_zero hv
    · simpa [State.Initialized] using h
  | _ => simpa [ownRule, State.Initialized, apply_ite State.cap] using h

/-! ### What a rule of its own reads -/

/-- Two states hold the same block and show the same response on port `x`. -/
abbrev SameEffect (x : Port) (t u : State) : Prop :=
  t.block = u.block ∧ t.statusOn x = u.statusOn x ∧ t.rdataOn x = u.rdataOn x

theorem SameEffect.trans {x : Port} {t u v : State} (h : SameEffect x t u) (h' : SameEffect x u v) : SameEffect x t v :=
  ⟨h.1.trans h'.1, h.2.1.trans h'.2.1, h.2.2.trans h'.2.2⟩

/-- Equal blocks with one response added show one effect. -/
theorem SameEffect.respond {x : Port} {t u : State} {st : Status} {d : Elem} (h : t.block = u.block) :
    SameEffect x (t.respond x st d) (u.respond x st d) := by
  simp [SameEffect, h]

/-- The values of the two combinational sub-blocks depend on the block alone (40_index_occupancy.md). -/
theorem State.flags_congr {s t : State} (h : t.block = s.block) :
    t.usedCount = s.usedCount ∧ t.freeCount = s.freeCount ∧ t.isEmpty = s.isEmpty ∧ t.isFull = s.isFull ∧
      t.pushSlot = s.pushSlot ∧ t.popSlot = s.popSlot := by
  obtain ⟨hcap, hrd, hwr, -⟩ := State.block_eq_iff.mp h
  simp [State.usedCount, State.freeCount, State.isEmpty, State.isFull, State.pushSlot, State.popSlot, hcap, hrd, hwr]

theorem State.pushed_congr {s t : State} (x : Port) (hb : t.block = s.block) (hv : t.pushOperand = s.pushOperand) :
    SameEffect x (t.pushed x) (s.pushed x) := by
  obtain ⟨hcap, hrd, hwr, hmem⟩ := State.block_eq_iff.mp hb
  obtain ⟨-, -, -, -, hpush, -⟩ := State.flags_congr hb
  exact .respond (by simp [State.block_eq_iff, hcap, hrd, hwr, hmem, hpush, hv])

theorem State.popped_congr {s t : State} (x : Port) (hp : t.params = s.params) (hb : t.block = s.block) :
    SameEffect x (t.popped x) (s.popped x) := by
  obtain ⟨hcap, hrd, hwr, hmem⟩ := State.block_eq_iff.mp hb
  obtain ⟨-, -, -, -, -, hpop⟩ := State.flags_congr hb
  rw [State.popped, hpop, State.readSlot_congr hp hmem]
  exact .respond (by simp [State.block_eq_iff, hcap, hrd, hwr, hmem])

/-- A legal command's effect depends on the parameters, the block and the push operand alone, and on port C on the draw
counter too. -/
theorem ownRule_congr {i : Instr} {s t : State} (hw : i.wf = true) (hp : t.params = s.params) (hb : t.block = s.block)
    (hv : t.pushOperand = s.pushOperand) (hd : i.port = .C → t.draws = s.draws) :
    SameEffect i.port (ownRule i t) (ownRule i s) := by
  obtain ⟨hcap, hrd, hwr, hmem⟩ := State.block_eq_iff.mp hb
  obtain ⟨hused, hfree, hempty, hfull, -, hpop⟩ := State.flags_congr hb
  have hzero : t.zeroIndices.block = s.zeroIndices.block := by simp [State.block_eq_iff, hcap, hmem]
  have hdrawn : i.port = .C → t.drawnElem = s.drawnElem := fun hx => by simp [State.drawnElem, hp, hd hx]
  cases i with
  | nop x => exact .respond hb
  | flush x => exact .respond hzero
  | used x => rw [ownRule, hused]; exact .respond hb
  | free x => rw [ownRule, hfree]; exact .respond hb
  | empty x => rw [ownRule, hempty]; exact .respond hb
  | full x => rw [ownRule, hfull]; exact .respond hb
  | pushu x => exact State.pushed_congr x hb hv
  | init x c =>
    simp only [ownRule, hp]
    split
    · exact .respond (by simp [State.block_eq_iff, hmem])
    · exact .respond hb
  | push x =>
    simp only [ownRule, hfull]
    split
    · exact .respond hb
    · exact State.pushed_congr x hb hv
  | pop x =>
    simp only [ownRule, hempty]
    split
    · exact .respond hb
    · exact State.popped_congr x hp hb
  | popu x =>
    obtain rfl : x = .C := by simpa [Instr.wf] using hw
    simp only [ownRule, hempty, hdrawn rfl]
    split
    · exact .respond (by simp [State.block_eq_iff, hcap, hrd, hwr, hmem])
    · exact State.popped_congr .C hp hb
  | peek x =>
    obtain rfl : x = .C := by simpa [Instr.wf] using hw
    simp only [ownRule, hempty, hdrawn rfl, hpop, State.readSlot_congr hp hmem]
    split
    · exact .respond hb
    · exact .respond hb

/-! ### A cycle of two commands that do not conflict -/

theorem clash_comm (i j : Instr) : clash i j = clash j i := Bool.or_comm _ _

theorem clash_nop (i : Instr) (x : Port) : clash i (.nop x) = false := by simp [clash, isCtl, isActive]

theorem clash_of_not_ctl {i j : Instr} (hi : isCtl i = false) (hj : isCtl j = false) : clash i j = false := by
  simp [clash, hi, hj]

theorem inConflict_eq_clash {i j : Instr} {s : State} (hj : s.decoded i.port.other = .command j) :
    inConflict i s = clash i j := by
  rw [inConflict, hj]

/-- Both ports' commands decode, and do not conflict. -/
abbrev PresentsPair (s : State) (iP iC : Instr) : Prop :=
  s.decoded .P = .command iP ∧ s.decoded .C = .command iC ∧ clash iP iC = false

theorem PresentsPair.no_conflict {s : State} {iP iC : Instr} (h : PresentsPair s iP iC) :
    inConflict iP s = false ∧ inConflict iC s = false := by
  obtain ⟨hP, hC, hn⟩ := h
  rw [inConflict_eq_clash (j := iC) (by rw [decode_port hP]; exact hC),
    inConflict_eq_clash (j := iP) (by rw [decode_port hC]; exact hP), clash_comm iC]
  exact ⟨hn, hn⟩

theorem PresentsPair.runPorts {s : State} {iP iC : Instr} (h : PresentsPair s iP iC) (hs : s.Inv) (hi : s.Initialized) :
    runPort .P s = .next (ownRule iP s) ∧ runPort .C s = .next (ownRule iC s) := by
  obtain ⟨hcP, hcC⟩ := h.no_conflict
  obtain ⟨hP, hC, -⟩ := h
  rw [runPort_command hP, runPort_command hC]
  exact ⟨exec_eq_ownRule hs hi (decode_wf hP) hcP, exec_eq_ownRule hs hi (decode_wf hC) hcC⟩

/-- A cycle without conflict joins the two commands' own rules (R60). -/
theorem PresentsPair.step_eq {s : State} {iP iC : Instr} (h : PresentsPair s iP iC) (hs : s.Inv) (hi : s.Initialized)
    (hr : s.pins.rst = false) : step s = .next (closeCycle s (ownRule iP s) (ownRule iC s)) :=
  let ⟨hrunP, hrunC⟩ := h.runPorts hs hi
  step_ports hr hrunP hrunC

/-! ### Which commands change the block -/

/-- POP or POPU on a non-empty buffer: it takes the oldest element. -/
abbrev Takes (i : Instr) (s : State) : Prop := i ∈ [.pop .C, .popu .C] ∧ s.isEmpty = false

/-- PUSHU, or PUSH with room: it stores its element. -/
abbrev Stores (i : Instr) (s : State) : Prop := i = .pushu .P ∨ (i = .push .P ∧ s.isFull = false)

theorem Takes.ownRule_eq {i : Instr} {s : State} (h : Takes i s) : ownRule i s = s.popped .C := by
  obtain ⟨hi, he⟩ := h
  simp only [List.mem_cons, List.not_mem_nil, or_false] at hi
  obtain rfl | rfl := hi <;> simp [ownRule, he]

theorem Stores.ownRule_eq {i : Instr} {s : State} (h : Stores i s) : ownRule i s = s.pushed .P := by
  obtain rfl | ⟨rfl, hf⟩ := h
  · rfl
  · simp [ownRule, hf]

/-- A pop or peek on a non-empty buffer answers its slot's element (R62). -/
theorem ownRule_reads {i : Instr} {s : State} (he : s.isEmpty = false) (hmem : i ∈ [.pop .C, .popu .C, .peek .C]) :
    (ownRule i s).cStatus = 0#3 ∧ (ownRule i s).cRdata = s.readSlot s.popSlot.toNat := by
  simp only [List.mem_cons, List.not_mem_nil, or_false] at hmem
  obtain rfl | rfl | rfl := hmem <;> simp [ownRule, he, State.popped, Status.code]

theorem ownRule_push_full {s : State} {x : Port} (h : s.isFull = true) :
    ownRule (.push x) s = s.respond x .overflow 0#32 := if_pos h

theorem ownRule_pop_empty {s : State} {x : Port} (h : s.isEmpty = true) :
    ownRule (.pop x) s = s.respond x .underflow 0#32 := if_pos h

theorem ownRule_popu_empty {s : State} {x : Port} (h : s.isEmpty = true) :
    ownRule (.popu x) s = (s.advanceRd.countDraw).respond x .ok s.drawnElem := if_pos h

/-- A consumer's command that takes no element leaves the block as it is, but for INIT, FLUSH and POPU on an empty
buffer. -/
theorem ownRule_block_of_not_takes {i : Instr} {s : State} (hx : i.port = .C) (hw : i.wf = true) (hc : isCtl i = false)
    (hp : ¬ (i = .popu .C ∧ s.isEmpty = true)) (h : ¬ Takes i s) : (ownRule i s).block = s.block := by
  cases i with
  | init | flush => cases hc
  | push x | pushu x => obtain rfl : x = .C := hx; cases hw
  | pop x =>
    obtain rfl : x = .C := hx
    have he : s.isEmpty = true := by simpa [Takes] using h
    rw [ownRule_pop_empty he, State.respond_block]
  | popu x =>
    obtain rfl : x = .C := hx
    have he : s.isEmpty = true := by simpa [Takes] using h
    exact absurd ⟨rfl, he⟩ hp
  | peek x =>
    simp only [ownRule]
    split
    · exact State.respond_block ..
    · exact State.respond_block ..
  | _ => exact State.respond_block ..

/-- A producer's command that stores no element leaves the block as it is, but for INIT and FLUSH. -/
theorem ownRule_block_of_not_stores {i : Instr} {s : State} (hx : i.port = .P) (hw : i.wf = true) (hc : isCtl i = false)
    (h : ¬ Stores i s) : (ownRule i s).block = s.block := by
  cases i with
  | init | flush => cases hc
  | pop x | popu x | peek x => obtain rfl : x = .P := hx; cases hw
  | push x =>
    obtain rfl : x = .P := hx
    have hf : s.isFull = true := by simpa [Stores] using h
    rw [ownRule_push_full hf, State.respond_block]
  | pushu x => obtain rfl : x = .P := hx; exact absurd (.inl rfl) h
  | _ => exact State.respond_block ..

/-- A producer's command draws no free value. -/
theorem ownRule_draws_of_producer {i : Instr} {s : State} (hx : i.port = .P) (hw : i.wf = true) :
    (ownRule i s).draws = s.draws := by
  cases i with
  | popu x | peek x => obtain rfl : x = .P := hx; cases hw
  | _ => simp [ownRule, apply_ite State.draws]

theorem ownRule_draws_congr {i : Instr} {s t : State} (hb : t.block = s.block) (hd : t.draws = s.draws) :
    (ownRule i t).draws = (ownRule i s).draws := by
  obtain ⟨-, -, hempty, -⟩ := State.flags_congr hb
  cases i <;> simp [ownRule, apply_ite State.draws, hempty, hd]

/-! ### Occupancy after a pop and a push -/

/-- R24 for an initialized state. -/
theorem State.Inv.index_bounds {s : State} (h : s.Inv) (hi : s.Initialized) :
    s.rd.toNat < 2 * s.cap.toNat ∧ s.wr.toNat < 2 * s.cap.toNat := by
  obtain ⟨-, ⟨-, hbounds⟩, -⟩ := h
  exact hbounds hi

theorem used_pos_of_not_empty {s : State} (hs : s.Inv) (hi : s.Initialized) (he : s.isEmpty = false) :
    0 < s.usedCount.toNat := by
  rw [Nat.pos_iff_ne_zero, Ne, ← State.isEmpty_iff_used hs hi, he]
  decide

/-- `x mod N` for an index below `2N`. -/
theorem mod_of_lt_two_mul {x n : Nat} (h : x < 2 * n) : x % n = if x < n then x else x - n := by
  split
  · exact Nat.mod_eq_of_lt ‹_›
  · rw [Nat.mod_eq_sub_mod (by omega), Nat.mod_eq_of_lt (by omega)]

/-- R91 without a modulus: an index in range advances by one or wraps to 0. -/
theorem nextIndex_eq {p : Params} {c x : Byte} (hv : validCap p c = true) (hx : x.toNat < 2 * c.toNat) :
    (nextIndex c x).toNat = if x.toNat + 1 < 2 * c.toNat then x.toNat + 1 else 0 := by
  rw [nextIndex_toNat x hv]
  split
  · exact Nat.mod_eq_of_lt ‹_›
  · rw [show x.toNat + 1 = 2 * c.toNat by omega, Nat.mod_self]

/-- A pop from a non-empty buffer lowers the used count by one. -/
theorem usedCount_popped {s : State} (x : Port) (hs : s.Inv) (hi : s.Initialized) (he : s.isEmpty = false) :
    (s.popped x).usedCount.toNat = s.usedCount.toNat - 1 := by
  have hv := hs.valid hi
  obtain ⟨hr, hw⟩ := hs.index_bounds hi
  have hpos := used_pos_of_not_empty hs hi he
  rw [usedCount_eq hv hr hw] at hpos ⊢
  rw [usedCount_eq (s := s.popped x) (by simpa using hv) (by simpa using nextIndex_lt s.rd hv) (by simpa using hw)]
  simp only [State.popped_cap, State.popped_rd, State.popped_wr, nextIndex_eq hv hr]
  split_ifs at hpos ⊢ <;> omega

/-- A push into a buffer that is not full raises the used count by one. -/
theorem usedCount_pushed {s : State} (x : Port) (hs : s.Inv) (hi : s.Initialized)
    (hf : s.usedCount.toNat < s.cap.toNat) : (s.pushed x).usedCount.toNat = s.usedCount.toNat + 1 := by
  have hv := hs.valid hi
  obtain ⟨hr, hw⟩ := hs.index_bounds hi
  rw [usedCount_eq hv hr hw] at hf ⊢
  rw [usedCount_eq (s := s.pushed x) (by simpa using hv) (by simpa using hr) (by simpa using nextIndex_lt s.wr hv)]
  simp only [State.pushed_cap, State.pushed_rd, State.pushed_wr, nextIndex_eq hv hw]
  split_ifs at hf ⊢ <;> omega

/-- A pop leaves room, unless the state is corrupted. -/
theorem room_after_pop {s : State} (x : Port) (hs : s.Inv) (hi : s.Initialized) (hu : s.Uncorrupted)
    (he : s.isEmpty = false) : (s.popped x).usedCount.toNat < (s.popped x).cap.toNat := by
  have hpos := used_pos_of_not_empty hs hi he
  rw [usedCount_popped x hs hi he, State.popped_cap]
  omega

theorem isFull_popped {s : State} (x : Port) (hs : s.Inv) (hi : s.Initialized) (hu : s.Uncorrupted)
    (he : s.isEmpty = false) : (s.popped x).isFull = false := by
  rw [← Bool.not_eq_true, State.isFull_iff_toNat]
  exact (room_after_pop x hs hi hu he).ne

theorem State.Inv.popped {s : State} (hs : s.Inv) (x : Port) (hi : s.Initialized) : (s.popped x).Inv :=
  hs.of_indices (State.popped_params s x) (State.popped_cap s x) (.inr ⟨hi, State.popped_rd s x⟩)
    (.inl (State.popped_wr s x)) (hs.storageOk.congr (State.popped_params s x) (State.popped_mem s x))

/-- R62: within contract the two indices address one slot only where the buffer is empty or full. -/
theorem empty_or_full_of_same_slot {s : State} (hs : s.Inv) (hi : s.Initialized) (hu : s.Uncorrupted)
    (h : s.pushSlot = s.popSlot) : s.isEmpty = true ∨ s.isFull = true := by
  have hv := hs.valid hi
  obtain ⟨hr, hw⟩ := hs.index_bounds hi
  have hslot : s.wr.toNat % s.cap.toNat = s.rd.toNat % s.cap.toNat := by
    rw [← slotOf_toNat _ hv, ← slotOf_toNat _ hv]; exact congrArg BitVec.toNat h
  rw [mod_of_lt_two_mul hw, mod_of_lt_two_mul hr] at hslot
  rw [State.isEmpty_iff_used hs hi, State.isFull_iff_toNat]
  rw [State.Uncorrupted] at hu
  rw [usedCount_eq hv hr hw] at hu ⊢
  split_ifs at hslot hu ⊢ <;> omega

/-! ### Serial order -/

/-- A cycle of two commands equals the first and then the second, in the block and in the second's response (R63). -/
def InOrder (s : State) (i j : Instr) : Prop :=
  (ownRule j (ownRule i s)).block = (joinPorts s (ownRule i s) (ownRule j s)).block ∧
    (ownRule j (ownRule i s)).statusOn j.port = (ownRule j s).statusOn j.port ∧
    (ownRule j (ownRule i s)).rdataOn j.port = (ownRule j s).rdataOn j.port

/-- After a command that left the block as it was, the second does what it does at the start of the cycle. -/
theorem inOrder_of_block_eq {s : State} {i j : Instr} (hw : j.wf = true) (hb : (ownRule i s).block = s.block)
    (hd : j.port = .C → (ownRule i s).draws = s.draws) : InOrder s i j := by
  obtain ⟨hblock, hst, hdata⟩ := ownRule_congr hw (ownRule_params i s) hb (ownRule_pushOperand i s) hd
  exact ⟨hblock.trans (joinPorts_block_right hb).symm, hst, hdata⟩

/-- NOP can always come second. -/
theorem inOrder_nop (s : State) (i : Instr) (x : Port) : InOrder s i (.nop x) := by
  refine ⟨?_, ?_, ?_⟩
  · have hnop : (ownRule (.nop x) s).block = s.block := State.respond_block ..
    rw [joinPorts_block_left hnop]
    exact State.respond_block ..
  · simp [ownRule, Instr.port]
  · simp [ownRule, Instr.port]

/-- A pop and a push in one cycle leave the block as the pop and then the push do. -/
theorem joinPorts_popped_pushed (s : State) :
    (joinPorts s (s.popped .C) (s.pushed .P)).block = ((s.popped .C).pushed .P).block := by
  rw [joinPorts_block, State.block]
  simp only [State.pushed_cap, State.pushed_rd, State.pushed_wr, State.pushed_mem, State.popped_cap, State.popped_rd,
    State.popped_wr, State.popped_mem, commit_self_left, commit_self_right]
  rfl

/-- An element is taken before one is stored: the pop frees a slot, which leaves the push what it is. -/
theorem inOrder_takes_stores {s : State} {i j : Instr} (hs : s.Inv) (hi : s.Initialized) (hu : s.Uncorrupted)
    (ht : Takes i s) (hst : Stores j s) : InOrder s i j := by
  have hst' : Stores j (s.popped .C) := hst.imp_right fun h => ⟨h.1, isFull_popped .C hs hi hu ht.2⟩
  have hport : j.port = .P := by obtain rfl | ⟨rfl, -⟩ := hst <;> rfl
  rw [InOrder, ht.ownRule_eq, hst.ownRule_eq, hst'.ownRule_eq, hport]
  exact ⟨(joinPorts_popped_pushed s).symm, rfl, rfl⟩

/-- The cells of R63's table with the producer first. -/
abbrev ProducerFirst (s : State) (iP iC : Instr) : Prop :=
  iP ∈ [.used .P, .free .P, .empty .P, .full .P] ∨ (iP = .push .P ∧ s.isFull = true ∧ iC ∈ [.pop .C, .popu .C])

theorem ProducerFirst.inOrder {s : State} {iP iC : Instr} (h : ProducerFirst s iP iC) (hw : iC.wf = true) :
    InOrder s iP iC := by
  obtain ⟨hport, hwP, hblock⟩ : iP.port = .P ∧ iP.wf = true ∧ (ownRule iP s).block = s.block := by
    obtain hq | ⟨rfl, hf, -⟩ := h
    · simp only [List.mem_cons, List.not_mem_nil, or_false] at hq
      obtain rfl | rfl | rfl | rfl := hq <;> exact ⟨rfl, rfl, State.respond_block ..⟩
    · exact ⟨rfl, rfl, by rw [ownRule_push_full hf, State.respond_block]⟩
  exact inOrder_of_block_eq hw hblock fun _ => ownRule_draws_of_producer hport hwP

/-- A producer beside a consumer that takes an element stores one or presents NOP, where R63's table puts the consumer
first. -/
theorem stores_or_nop_of_takes {s : State} {iP iC : Instr} (hx : iP.port = .P) (hw : iP.wf = true)
    (hn : clash iP iC = false) (hpf : ¬ ProducerFirst s iP iC) (ht : Takes iC s) : iP = .nop .P ∨ Stores iP s := by
  obtain ⟨htake, -⟩ := ht
  have ha : isActive iC = true := by
    simp only [List.mem_cons, List.not_mem_nil, or_false] at htake
    obtain rfl | rfl := htake <;> rfl
  cases iP with
  | init | flush => simp [clash, isCtl, ha] at hn
  | pop x | popu x | peek x => obtain rfl : x = .P := hx; cases hw
  | used x | free x | empty x | full x => obtain rfl : x = .P := hx; simp [ProducerFirst] at hpf
  | nop x => obtain rfl : x = .P := hx; exact .inl rfl
  | pushu x => obtain rfl : x = .P := hx; exact .inr (.inl rfl)
  | push x =>
    obtain rfl : x = .P := hx
    refine .inr (.inr ⟨rfl, ?_⟩)
    rw [← Bool.not_eq_true]
    exact fun hf => hpf (.inr ⟨rfl, hf, htake⟩)

/-- The cells of R63's table with the consumer first. -/
theorem inOrder_consumer_first {s : State} {iP iC : Instr} (hs : s.Inv) (hi : s.Initialized) (hu : s.Uncorrupted)
    (h : PresentsPair s iP iC) (hv2 : ¬ (iC = .popu .C ∧ s.isEmpty = true)) (hpf : ¬ ProducerFirst s iP iC) :
    InOrder s iC iP := by
  obtain ⟨hP, hC, hn⟩ := h
  by_cases ht : Takes iC s
  · obtain rfl | hst := stores_or_nop_of_takes (decode_port hP) (decode_wf hP) hn hpf ht
    · exact inOrder_nop s iC .P
    · exact inOrder_takes_stores hs hi hu ht hst
  · by_cases hctl : isCtl iC = true
    · have hnop : iP = .nop .P := by
        have hx := decode_port hP
        cases iP with
        | nop x => obtain rfl := hx; rfl
        | _ => simp [clash, hctl, isActive] at hn
      rw [hnop]
      exact inOrder_nop s iC .P
    · have hblock := ownRule_block_of_not_takes (decode_port hC) (decode_wf hC) (by simpa using hctl) hv2 ht
      exact inOrder_of_block_eq (decode_wf hP) hblock fun hx => by rw [decode_port hP] at hx; cases hx

/-! ### Runs of one and two cycles -/

theorem run_one {a : CycleIn} {s t : State} (ht : step { s with inputs := [a] } = .next t) :
    run [a] s = some ([t.response], t) := by
  simp [run, ht]

theorem run_two {a b : CycleIn} {s t u : State} (ht : step { s with inputs := [a] } = .next t)
    (hu : step { t with inputs := [b] } = .next u) : run [a, b] s = some ([t.response, u.response], u) := by
  simp [run, ht, hu]

/-- A cycle without reset presents command `i` on port `x`, and NOP on the other port. -/
abbrev PresentsAlone (x : Port) (i : Instr) (a : CycleIn) : Prop :=
  a.rst = false ∧ decode x (a.cmd x) = .command i ∧ a.cmd x.other = 0#16

/-- A command with a cycle of its own does what its own rule says. -/
theorem step_alone {x : Port} {i : Instr} {s : State} (hs : s.Inv) (hi : s.Initialized)
    (h : PresentsAlone x i s.pins) : ∃ t, step s = .next t ∧ SameEffect x t (ownRule i s) ∧
      t.params = s.params ∧ t.draws = (ownRule i s).draws := by
  obtain ⟨hr, hd, hz⟩ := h
  have hc : inConflict i s = false := by
    rw [inConflict_eq_clash (j := .nop x.other) (by rw [decode_port hd, State.decoded, hz, decode_nop]), clash_nop]
  have he := exec_eq_ownRule hs hi (decode_wf hd) hc
  cases x with
  | P => exact ⟨_, step_producer_alone hr hd hz he, ⟨rfl, rfl, rfl⟩, ownRule_params i s, rfl⟩
  | C => exact ⟨_, step_consumer_alone hr hd hz he, ⟨rfl, rfl, rfl⟩, ownRule_params i s, rfl⟩

/-- Two commands in cycles of their own: the second's own rule after the first's. -/
theorem run_alone_two {x y : Port} {i j : Instr} {a b : CycleIn} {s : State} (hs : s.Inv) (hi : s.Initialized)
    (ha : PresentsAlone x i a) (hb : PresentsAlone y j b) :
    ∃ t u : State, run [a, b] s = some ([t.response, u.response], u) ∧
      SameEffect x t (ownRule i { s with inputs := [a] }) ∧
      SameEffect y u (ownRule j { ownRule i { s with inputs := [a] } with inputs := [b] }) := by
  obtain ⟨t, ht, het, hpt, hdt⟩ := step_alone (s := { s with inputs := [a] }) hs hi ha
  have hst : t.Inv := step_inv (s := { s with inputs := [a] }) hs ht
  have hit : t.Initialized := by
    have hcap := (State.block_eq_iff.mp het.1).1
    rw [State.Initialized, hcap]
    exact ownRule_initialized i hi
  obtain ⟨u, hu, heu, -, -⟩ := step_alone (s := { t with inputs := [b] }) hst hit hb
  refine ⟨t, u, run_two ht hu, het, heu.trans ?_⟩
  obtain ⟨-, hdb, -⟩ := hb
  obtain rfl := decode_port hdb
  refine ownRule_congr (decode_wf hdb) ?_ het.1 ?_ fun _ => hdt
  · exact hpt.trans (ownRule_params i { s with inputs := [a] }).symm
  · exact congrArg (fit · b.pWdata) (congrArg Params.width (hpt.trans (ownRule_params i { s with inputs := [a] }).symm))

/-- Two commands that can be put in order give the same responses and block in cycles of their own as in one cycle, where
the three cycles carry one `p_wdata`. -/
theorem run_alone_two_of_inOrder {x y : Port} {i j : Instr} {a b : CycleIn} {s : State} (hs : s.Inv)
    (hi : s.Initialized) (ha : PresentsAlone x i a) (hb : PresentsAlone y j b) (hva : a.pWdata = s.pins.pWdata)
    (hvb : b.pWdata = s.pins.pWdata) (ho : InOrder s i j) :
    ∃ t u : State, run [a, b] s = some ([t.response, u.response], u) ∧
      t.statusOn x = (ownRule i s).statusOn x ∧ t.rdataOn x = (ownRule i s).rdataOn x ∧
      u.statusOn y = (ownRule j s).statusOn y ∧ u.rdataOn y = (ownRule j s).rdataOn y ∧
      u.block = (joinPorts s (ownRule i s) (ownRule j s)).block := by
  obtain ⟨t, u, hrun, het, heu⟩ := run_alone_two hs hi ha hb
  obtain ⟨-, hdi, -⟩ := ha
  obtain ⟨-, hdj, -⟩ := hb
  obtain rfl := decode_port hdi
  obtain rfl := decode_port hdj
  have hfirst : SameEffect i.port (ownRule i { s with inputs := [a] }) (ownRule i s) :=
    ownRule_congr (decode_wf hdi) rfl rfl (congrArg (fit s.params.width) hva) fun _ => rfl
  have hsecond : SameEffect j.port (ownRule j { ownRule i { s with inputs := [a] } with inputs := [b] })
      (ownRule j (ownRule i s)) := by
    refine ownRule_congr (decode_wf hdj) ?_ hfirst.1 ?_ fun _ => ownRule_draws_congr rfl rfl
    · exact (ownRule_params i { s with inputs := [a] }).trans (ownRule_params i s).symm
    · rw [ownRule_pushOperand i s]
      exact congrArg₂ (fun p v => fit (Params.width p) v) (ownRule_params i { s with inputs := [a] }) hvb
  obtain ⟨hblock, hst, hdata⟩ := ho
  obtain ⟨hub, hus, hud⟩ := heu.trans hsecond
  obtain ⟨-, hts, htd⟩ := het.trans hfirst
  exact ⟨t, u, hrun, hts, htd, hus.trans hst, hud.trans hdata, hub.trans hblock⟩

/-! ### PUSH beside POPU on an empty buffer of one slot -/

theorem isFull_of_empty {s : State} (hi : s.Initialized) (he : s.wr = s.rd) : s.isFull = false := by
  rw [← Bool.not_eq_true, State.isFull_iff]
  intro h
  exact hi (by rw [← h, State.usedCount, he]; simp)

/-- In one cycle the PUSH succeeds, both indices advance, and slot 0 holds the element (R63). -/
theorem run_push_beside_popu {s : State} (hs : s.Inv) (hc : s.cap = 1#8) (he : s.wr = s.rd) (v : Elem) :
    ∃ t, run [{ pushCycle v with cCmd := 0xB000#16 }] s = some ([t.response], t) ∧ t.pStatus = 0#3 ∧
      t.wr = nextIndex 1#8 s.wr ∧ t.rd = nextIndex 1#8 s.rd ∧ t.readSlot 0 = fit s.params.width v := by
  have hi : s.Initialized := by rw [State.Initialized, hc]; decide
  set s' : State := { s with inputs := [{ pushCycle v with cCmd := 0xB000#16 }] }
  have hpair : PresentsPair s' (.push .P) (.popu .C) :=
    ⟨(by decide : decode .P 0x8000#16 = _), (by decide : decode .C 0xB000#16 = _), rfl⟩
  have hpush : ownRule (.push .P) s' = s'.pushed .P := Stores.ownRule_eq (.inr ⟨rfl, isFull_of_empty (s := s') hi he⟩)
  have hpopu : ownRule (.popu .C) s' = (s'.advanceRd.countDraw).respond .C .ok s'.drawnElem :=
    ownRule_popu_empty ((State.isEmpty_iff s').mpr he)
  have hslot : s'.pushSlot.toNat = 0 := by
    rw [State.pushSlot, slotOf_toNat _ (hs.valid hi), show s'.cap = 1#8 from hc]
    exact Nat.mod_one _
  have hstep := hpair.step_eq (s := s') hs hi rfl
  rw [hpush, hpopu] at hstep
  refine ⟨_, run_one hstep, rfl, ?_⟩
  obtain ⟨-, -, hrd, hwr, hmem, -⟩ :=
    closeCycle_fields s' (s'.pushed .P) ((s'.advanceRd.countDraw).respond .C .ok s'.drawnElem)
  simp only [State.pushed_rd, State.pushed_wr, State.pushed_mem, State.respond_rd, State.respond_wr, State.respond_mem,
    State.countDraw_rd, State.countDraw_wr, State.countDraw_mem, State.advanceRd_rd, State.advanceRd_wr,
    State.advanceRd_mem, commit_self_left, commit_self_right, hslot] at hrd hwr hmem
  rw [← hc]
  refine ⟨hwr, hrd, ?_⟩
  refine (State.readSlot_congr (t := closeCycle s' _ _) (s := s'.writeSlot 0 s'.pushOperand) rfl hmem 0).trans ?_
  rw [State.readSlot_writeSlot_same]
  exact fit_pushOperand s'

/-- The used count of a one-slot buffer after a pop from it while empty: it is full. -/
theorem index_sub_nextIndex_one (x : Byte) : (x - nextIndex 1#8 x) &&& maskOf 1#8 = 1#8 := by
  revert x; decide

/-- With the POPU first the buffer is full before the PUSH, which answers OVERFLOW (R63). -/
theorem run_popu_then_push {s : State} (hs : s.Inv) (hc : s.cap = 1#8) (he : s.wr = s.rd) (v : Elem) :
    ∃ t u : State, run [aloneOn .C 0xB000#16, pushCycle v] s = some ([t.response, u.response], u) ∧ u.pStatus = 2#3 := by
  have hi : s.Initialized := by rw [State.Initialized, hc]; decide
  obtain ⟨t, u, hrun, -, -, hst, -⟩ := run_alone_two (x := .C) (y := .P) (i := .popu .C) (j := .push .P)
    (a := aloneOn .C 0xB000#16) (b := pushCycle v) hs hi (by decide) ⟨rfl, (by decide : decode .P 0x8000#16 = _), rfl⟩
  set s' : State := { s with inputs := [aloneOn .C 0xB000#16] }
  have hpopu : ownRule (.popu .C) s' = (s'.advanceRd.countDraw).respond .C .ok s'.drawnElem :=
    ownRule_popu_empty ((State.isEmpty_iff s').mpr he)
  have hfull : State.isFull { ownRule (.popu .C) s' with inputs := [pushCycle v] } = true := by
    rw [State.isFull_iff, State.usedCount, hpopu]
    show (s.wr - nextIndex s.cap s.rd) &&& maskOf s.cap = s.cap
    rw [hc, he, index_sub_nextIndex_one]
  exact ⟨t, u, hrun, hst.trans (by rw [ownRule_push_full hfull]; rfl)⟩

/-! ### The queue a block holds -/

@[simp] theorem length_queue (s : State) : s.queue.length = s.usedCount.toNat := by simp [State.queue]

theorem queue_congr {s t : State} (hp : t.params = s.params) (hb : t.block = s.block) : t.queue = s.queue := by
  obtain ⟨hcap, hrd, -, hmem⟩ := State.block_eq_iff.mp hb
  obtain ⟨hused, -⟩ := State.flags_congr hb
  simp only [State.queue, State.nthSlot, hused, hcap, hrd, State.readSlot_congr hp hmem]

/-- The slot of the `n`-th oldest element is `rd + n` modulo the capacity (R92). -/
theorem nthSlot_eq {s : State} (hv : validCap s.params s.cap = true) (n : Nat) :
    s.nthSlot n = (s.rd.toNat + n) % s.cap.toNat := by
  have hdvd : s.cap.toNat ∣ 2 ^ 8 := (Nat.dvd_mul_left _ 2).trans (two_cap_dvd hv)
  rw [State.nthSlot, slotOf_toNat _ hv, BitVec.toNat_add, BitVec.toNat_ofNat, Nat.mod_mod_of_dvd _ hdvd, Nat.add_mod,
    Nat.mod_mod_of_dvd _ hdvd, ← Nat.add_mod]

/-- After a pop the elements stand one place further to the front. -/
theorem nthSlot_popped {s : State} (x : Port) (hv : validCap s.params s.cap = true) (n : Nat) :
    (s.popped x).nthSlot n = s.nthSlot (n + 1) := by
  have hv' : validCap (s.popped x).params (s.popped x).cap = true := by simpa using hv
  rw [nthSlot_eq hv', nthSlot_eq hv, State.popped_cap, State.popped_rd, nextIndex_toNat _ hv, Nat.add_mod,
    Nat.mod_mod_of_dvd _ (Nat.dvd_mul_left _ _), ← Nat.add_mod, Nat.add_assoc, Nat.add_comm 1 n]

/-- The oldest element stands in the slot a pop reads. -/
theorem nthSlot_zero (s : State) : s.nthSlot 0 = s.popSlot.toNat := by simp [State.nthSlot, State.popSlot]

/-- The place after the newest element is the slot a push writes. -/
theorem nthSlot_used {s : State} (hs : s.Inv) (hi : s.Initialized) :
    s.nthSlot s.usedCount.toNat = s.pushSlot.toNat := by
  have hv := hs.valid hi
  obtain ⟨hr, hw⟩ := hs.index_bounds hi
  rw [nthSlot_eq hv, State.pushSlot, slotOf_toNat _ hv, usedCount_eq hv hr hw]
  split
  · rw [Nat.add_sub_cancel' ‹_›]
  · rw [show s.rd.toNat + (2 * s.cap.toNat + s.wr.toNat - s.rd.toNat) = s.wr.toNat + s.cap.toNat * 2 by omega,
      Nat.add_mul_mod_self_left]

/-- Within a buffer that is not full the slot a push writes holds no queued element. -/
theorem nthSlot_ne_pushSlot {s : State} {n : Nat} (hs : s.Inv) (hi : s.Initialized)
    (hf : s.usedCount.toNat < s.cap.toNat) (hn : n < s.usedCount.toNat) : s.nthSlot n ≠ s.pushSlot.toNat := by
  have hv := hs.valid hi
  rw [← nthSlot_used hs hi, nthSlot_eq hv, nthSlot_eq hv]
  intro h
  have hmod : n ≡ s.usedCount.toNat [MOD s.cap.toNat] := Nat.ModEq.add_left_cancel' _ h
  exact absurd (hmod.eq_of_lt_of_lt (hn.trans hf) hf) (by omega)

/-- A pop removes the oldest element (R56, R130). -/
theorem queue_popped {s : State} (x : Port) (hs : s.Inv) (hi : s.Initialized) (he : s.isEmpty = false) :
    (s.popped x).queue = s.queue.tail := by
  obtain ⟨u, hu⟩ := Nat.exists_eq_add_of_lt (used_pos_of_not_empty hs hi he)
  have hread : ∀ k, (s.popped x).readSlot k = s.readSlot k :=
    State.readSlot_congr (State.popped_params s x) (State.popped_mem s x)
  simp only [State.queue, usedCount_popped x hs hi he, hu, nthSlot_popped x (hs.valid hi), hread]
  simp [List.range_succ_eq_map, Function.comp_def]

/-- A push into a buffer that is not full appends its element (R56, R120). -/
theorem queue_pushed {s : State} (x : Port) (hs : s.Inv) (hi : s.Initialized)
    (hf : s.usedCount.toNat < s.cap.toNat) : (s.pushed x).queue = s.queue ++ [s.pushOperand] := by
  have hnth : ∀ n, (s.pushed x).nthSlot n = s.nthSlot n := fun n => by
    rw [State.nthSlot, State.pushed_cap, State.pushed_rd, State.nthSlot]
  have hread : ∀ k, (s.pushed x).readSlot k = (s.writeSlot s.pushSlot.toNat s.pushOperand).readSlot k :=
    State.readSlot_congr (State.pushed_params s x) (State.pushed_mem s x)
  simp only [State.queue, usedCount_pushed x hs hi hf, hnth, hread, List.range_succ, List.map_append, List.map_cons,
    List.map_nil, nthSlot_used hs hi, State.readSlot_writeSlot_same, fit_pushOperand]
  congr 1
  refine List.map_congr_left fun n hn => State.readSlot_writeSlot_other s _ ?_
  exact nthSlot_ne_pushSlot hs hi hf (List.mem_range.mp hn)

/-- The oldest element of a queue is what a pop reads. -/
theorem head_queue {s : State} {d : Elem} (h : s.queue.head? = some d) : d = s.readSlot s.popSlot.toNat := by
  rw [State.queue, List.head?_map, List.head?_range] at h
  split at h
  · cases h
  · rw [← nthSlot_zero]
    simpa using h.symm

/-! ### The contract in one cycle -/

/-- A cycle that leaves the contract flag clear commits none of V1 to V7 (R160). -/
theorem commits_eq_false {s p c : State} (h : (closeCycle s p c).violated = false) (v : Violation) :
    commits s (joinPorts s p c) v = false := by
  obtain ⟨-, -, -, -, -, -, -, -, -, -, -, hviol⟩ := closeCycle_fields s p c
  obtain ⟨-, hnone⟩ : s.violated = false ∧ violations s (joinPorts s p c) = [] := by simpa [h] using hviol.symm
  rw [violations, List.filter_eq_nil_iff] at hnone
  simpa using hnone v (by cases v <;> decide)

theorem PresentsPair.both_execute {s : State} {iP iC : Instr} (h : PresentsPair s iP iC) (hi : s.Initialized) :
    executes s .P = some iP ∧ executes s .C = some iC := by
  obtain ⟨hcP, hcC⟩ := h.no_conflict
  obtain ⟨hP, hC, -⟩ := h
  simp [executes, hP, hC, hcP, hcC, hi]

/-- V1 left out: a PUSHU on a full buffer has a POP or POPU beside it (R160). -/
theorem takes_of_pushu_full {s p c : State} {iP iC : Instr} (h : PresentsPair s iP iC) (hi : s.Initialized)
    (hviol : (closeCycle s p c).violated = false) (hpush : iP = .pushu .P) (hf : s.isFull = true) : Takes iC s := by
  obtain ⟨hxP, hxC⟩ := h.both_execute hi
  have hne : s.isEmpty = false := by
    rw [← Bool.not_eq_true, State.isEmpty_iff]
    intro he
    rw [isFull_of_empty hi he] at hf
    cases hf
  have hv1 := commits_eq_false hviol .unreadOverwritten
  have hport := decode_port h.2.1
  simp only [commits, hxP, hpush, hf, popExecutes, hxC] at hv1
  refine ⟨?_, hne⟩
  cases iC with
  | pop x | popu x => obtain rfl : x = .C := hport; simp
  | _ => simp at hv1

/-- V2 left out: no POPU on an empty buffer (R160). -/
theorem not_popu_empty {s p c : State} {iP iC : Instr} (h : PresentsPair s iP iC) (hi : s.Initialized)
    (hviol : (closeCycle s p c).violated = false) : ¬ (iC = .popu .C ∧ s.isEmpty = true) := by
  rintro ⟨rfl, he⟩
  have hv2 := commits_eq_false hviol .emptyPopped
  simp [commits, (h.both_execute hi).2, he] at hv2

/-! ### The queue after a cycle -/

theorem ownRule_cap_of_not_ctl {i : Instr} (s : State) (hc : isCtl i = false) : (ownRule i s).cap = s.cap := by
  cases i with
  | init | flush => cases hc
  | _ => simp [ownRule, apply_ite State.cap]

/-- A producer that stores an element without a consumer that takes one has room, unless it commits V1. -/
theorem room_of_stores {s : State} {iP iC : Instr} (hu : s.Uncorrupted)
    (hv1 : iP = .pushu .P → s.isFull = true → Takes iC s) (hst : Stores iP s) (ht : ¬ Takes iC s) :
    s.usedCount.toNat < s.cap.toNat := by
  refine lt_of_le_of_ne hu fun hf => ?_
  rw [← State.isFull_iff_toNat] at hf
  obtain hpush | ⟨-, hroom⟩ := hst
  · exact ht (hv1 hpush hf)
  · rw [hf] at hroom; cases hroom

/-- The queue after a cycle within contract without INIT and FLUSH: what was taken is gone, what was stored is last. -/
theorem queue_closeCycle {s : State} {iP iC : Instr} (hs : s.Inv) (hi : s.Initialized) (hu : s.Uncorrupted)
    (hpair : PresentsPair s iP iC) (hctlP : isCtl iP = false) (hctlC : isCtl iC = false)
    (hv1 : iP = .pushu .P → s.isFull = true → Takes iC s) (hv2 : ¬ (iC = .popu .C ∧ s.isEmpty = true)) :
    (closeCycle s (ownRule iP s) (ownRule iC s)).queue =
      (if Takes iC s then s.queue.tail else s.queue) ++ (if Stores iP s then [s.pushOperand] else []) := by
  obtain ⟨hrunP, hrunC⟩ := hpair.runPorts hs hi
  obtain ⟨hP, hC, -⟩ := hpair
  have hinertP := ownRule_block_of_not_stores (s := s) (decode_port hP) (decode_wf hP) hctlP
  have hinertC := ownRule_block_of_not_takes (decode_port hC) (decode_wf hC) hctlC hv2
  by_cases ht : Takes iC s
  · rw [if_pos ht]
    by_cases hst : Stores iP s
    · rw [if_pos hst, hst.ownRule_eq, ht.ownRule_eq]
      rw [hst.ownRule_eq] at hrunP
      rw [ht.ownRule_eq] at hrunC
      have hblock := (joinPorts_block_comm hrunP hrunC).trans (joinPorts_popped_pushed s)
      calc (closeCycle s (s.pushed .P) (s.popped .C)).queue = ((s.popped .C).pushed .P).queue :=
            queue_congr (by simp [closeCycle]) hblock
        _ = (s.popped .C).queue ++ [(s.popped .C).pushOperand] :=
            queue_pushed .P (hs.popped .C hi) hi (room_after_pop .C hs hi hu ht.2)
        _ = s.queue.tail ++ [s.pushOperand] := by rw [queue_popped .C hs hi ht.2]; rfl
    · rw [if_neg hst, List.append_nil, ht.ownRule_eq, ← queue_popped .C hs hi ht.2]
      exact queue_congr (State.popped_params s .C).symm (joinPorts_block_right (hinertP hst))
  · rw [if_neg ht]
    by_cases hst : Stores iP s
    · rw [if_pos hst, hst.ownRule_eq, ← queue_pushed .P hs hi (room_of_stores hu hv1 hst ht)]
      exact queue_congr (State.pushed_params s .P).symm (joinPorts_block_left (hinertC ht))
    · rw [if_neg hst, List.append_nil]
      exact queue_congr rfl ((joinPorts_block_left (hinertC ht)).trans (hinertP hst))

/-- Taking is removing the head: from an empty queue there is nothing to remove. -/
theorem tail_of_takes {s : State} {i : Instr} (hs : s.Inv) (hi : s.Initialized) :
    (if Takes i s then s.queue.tail else s.queue) = if i ∈ [.pop .C, .popu .C] then s.queue.tail else s.queue := by
  by_cases he : s.isEmpty = true
  · have hnil : s.queue = [] := by
      rw [← List.length_eq_zero_iff, length_queue, ← State.isEmpty_iff_used hs hi]; exact he
    simp [hnil]
  · simp [Takes, he]

/-- Room for a PUSH, in terms of the queue (R120). -/
theorem stores_iff {s : State} {i : Instr} (hu : s.Uncorrupted) :
    Stores i s ↔ i = .pushu .P ∨ (i = .push .P ∧ s.queue.length < s.cap.toNat) := by
  have hroom : s.isFull = false ↔ s.queue.length < s.cap.toNat := by
    rw [← Bool.not_eq_true, State.isFull_iff_toNat, length_queue]
    exact ⟨lt_of_le_of_ne hu, ne_of_lt⟩
  rw [Stores, hroom]

/-- A cycle within contract keeps the queue within the capacity. -/
theorem length_after_cycle_le {s : State} {iP iC : Instr} (hs : s.Inv) (hi : s.Initialized) (hu : s.Uncorrupted)
    (hv1 : iP = .pushu .P → s.isFull = true → Takes iC s) :
    ((if Takes iC s then s.queue.tail else s.queue) ++ (if Stores iP s then [s.pushOperand] else [])).length ≤
      s.cap.toNat := by
  by_cases ht : Takes iC s
  · have hpos := used_pos_of_not_empty hs hi ht.2
    have hone : (if Stores iP s then [s.pushOperand] else []).length ≤ 1 := by split <;> simp
    rw [if_pos ht, List.length_append, List.length_tail, length_queue]
    omega
  · rw [if_neg ht, List.length_append, length_queue]
    by_cases hst : Stores iP s
    · rw [if_pos hst]; exact room_of_stores hu hv1 hst ht
    · rw [if_neg hst]; exact hu

/-- The consumer's answer, where there is an oldest element (R130, R132, R134). -/
theorem ownRule_returns_oldest {s : State} {i : Instr} {d : Elem} (hs : s.Inv) (hi : s.Initialized)
    (hmem : i ∈ [.pop .C, .popu .C, .peek .C]) (hd : s.queue.head? = some d) :
    (ownRule i s).cStatus = 0#3 ∧ (ownRule i s).cRdata = d := by
  have he : s.isEmpty = false := by
    rw [← Bool.not_eq_true, State.isEmpty_iff_used hs hi, ← length_queue, List.length_eq_zero_iff]
    rintro hnil
    rw [hnil] at hd
    cases hd
  rw [head_queue hd]
  exact ownRule_reads he hmem

/-! ### The obligations -/

/-- Settles O7: each decoded word's side of the cycle is its command's `exec`. -/
theorem stepRunsBothDecodedCommands : Obligations.StepRunsBothDecodedCommands :=
  fun _ _ _ _ _ hr hP hC hp hc => step_ports hr ((runPort_command hP).trans hp) ((runPort_command hC).trans hc)

/-- Settles O8: the idle port's NOP joins with the command's result as its response alone. -/
theorem stepRunsTheOnlyCommand : Obligations.StepRunsTheOnlyCommand :=
  ⟨fun _ _ _ => step_producer_alone, fun _ _ _ => step_consumer_alone⟩

/-- Settles O10: both sides of a cycle answer under the invariant, and each answer carries a code of the table. -/
theorem everyCycleCompletes : Obligations.EveryCycleCompletes := by
  intro s hs
  obtain ⟨t, ht⟩ := step_answers hs
  refine ⟨t, ht, fun hr => ?_⟩
  obtain ⟨hr', -⟩ | ⟨-, p, c, hP, hC, rfl⟩ := step_next ht
  · rw [hr] at hr'; cases hr'
  · exact ⟨runPort_statusOn_eq_code hP, runPort_statusOn_eq_code hC⟩

/-- Settles O11: INIT or FLUSH that takes effect has NOP beside it, and every other command keeps to its port's registers. -/
theorem portEffectsAreDisjoint : Obligations.PortEffectsAreDisjoint := by
  intro s p c iP iC hP hC hp hc
  refine ⟨fun hctl hs => ctl_excludes_other (x := .P) hP hC hp hc hctl hs,
    fun hctl hs => ctl_excludes_other (x := .C) hC hP hc hp hctl hs, fun hn => ?_, fun hn => ?_,
    joinPorts_block_comm ((runPort_command hP).trans hp) ((runPort_command hC).trans hc)⟩
  · obtain ⟨-, -, -, -, -, -, hkept⟩ := (exec_does hp).producer_frame (decode_port hP)
    exact hkept hn
  · obtain ⟨-, -, -, hmem, -, -, hkept⟩ := (exec_does hc).consumer_frame (decode_port hC)
    obtain ⟨hcap, hwr⟩ := hkept hn
    exact ⟨hcap, hwr, hmem⟩

/-- Settles O12: the consumer's own rule reads the start-of-cycle state, and one slot means an empty or a full buffer. -/
theorem readDuringWriteReturnsTheOldValue : Obligations.ReadDuringWriteReturnsTheOldValue := by
  intro s t iP iC hs hi hr hP hC hctl hmem ht
  have hmem' : iC = .pop .C ∨ iC ∈ [.popu .C, .peek .C] := by simpa using hmem
  have hctlC : isCtl iC = false :=
    (by decide : ∀ i ∈ [Instr.pop .C, .popu .C, .peek .C], isCtl i = false) iC hmem
  have hpair : PresentsPair s iP iC := ⟨hP, hC, clash_of_not_ctl hctl hctlC⟩
  rw [hpair.step_eq hs hi hr] at ht
  cases ht
  refine ⟨fun hne => ownRule_reads (by simpa [State.isEmpty] using hne) hmem, fun hu hpush hp hc hslot => ?_⟩
  obtain he | hf := empty_or_full_of_same_slot hs hi hu hslot
  · obtain rfl | hread := hmem'
    · have hunder : (ownRule (.pop .C) s).cStatus = 3#3 := by rw [ownRule_pop_empty he]; rfl
      exact absurd (hunder.symm.trans hc) (by decide)
    · exact .inr ⟨he, hread⟩
  · simp only [List.mem_cons, List.not_mem_nil, or_false] at hpush
    obtain rfl | rfl := hpush
    · have hover : (ownRule (.push .P) s).pStatus = 2#3 := by rw [ownRule_push_full hf]; rfl
      exact absurd (hover.symm.trans hp) (by decide)
    · exact .inl ⟨rfl, hf⟩

/-- Settles O13: each command of the second run reads what it reads in the shared cycle; the counter-example by the two
rules on a buffer of one slot. -/
theorem cycleEqualsASerialOrder : Obligations.CycleEqualsASerialOrder := by
  constructor
  · intro s wP wC v iP iC hs hi hu hP hC hn hv2
    set s' : State := { s with inputs := [⟨false, wP, v, wC⟩] }
    have hpair : PresentsPair s' iP iC := ⟨hP, hC, hn⟩
    have hone := run_one (hpair.step_eq (s := s') hs hi rfl)
    have aloneP : PresentsAlone .P iP ⟨false, wP, v, 0#16⟩ := ⟨rfl, hP, rfl⟩
    have aloneC : PresentsAlone .C iC ⟨false, 0#16, v, wC⟩ := ⟨rfl, hC, rfl⟩
    by_cases hpf : ProducerFirst s iP iC
    · have hord := ProducerFirst.inOrder (s := s') hpf (decode_wf hC)
      obtain ⟨t, u, hrun, hts, htd, hus, hud, hblock⟩ :=
        run_alone_two_of_inOrder (s := s') hs hi aloneP aloneC rfl rfl hord
      exact ⟨_, t.response, u.response, _, u, hone, by rw [if_pos hpf]; exact hrun, hts.symm, htd.symm, hus.symm,
        hud.symm, hblock.symm⟩
    · have hord := inOrder_consumer_first (s := s') hs hi hu hpair hv2 hpf
      obtain ⟨t, u, hrun, hts, htd, hus, hud, hblock⟩ :=
        run_alone_two_of_inOrder (s := s') hs hi aloneC aloneP rfl rfl hord
      obtain ⟨hrunP, hrunC⟩ := hpair.runPorts (s := s') hs hi
      exact ⟨_, u.response, t.response, _, u, hone, by rw [if_neg hpf]; exact hrun, hus.symm, hud.symm, hts.symm,
        htd.symm, (joinPorts_block_comm hrunP hrunC).trans hblock.symm⟩
  · intro s v hs hc he
    obtain ⟨t, hone, hst, hwr, hrd, hread⟩ := run_push_beside_popu hs hc he v
    obtain ⟨t', u, htwo, hover⟩ := run_popu_then_push hs hc he v
    exact ⟨t.response, t'.response, u.response, t, u, hone, hst, hwr, hrd, hread, htwo, hover⟩

/-- Settles O52: within contract what the consumer takes is the head of the queue, and what is stored finds room. -/
theorem cycleRefinesTheQueue : Obligations.CycleRefinesTheQueue := by
  intro s t iP iC hs hi hu hr hP hC hctlP hctlC ht _ hviol
  have hpair : PresentsPair s iP iC := ⟨hP, hC, clash_of_not_ctl hctlP hctlC⟩
  rw [hpair.step_eq hs hi hr] at ht
  cases ht
  have hv1 := takes_of_pushu_full hpair hi hviol
  have hqueue := queue_closeCycle hs hi hu hpair hctlP hctlC hv1 (not_popu_empty hpair hi hviol)
  refine ⟨?_, fun hmem d hd => ownRule_returns_oldest hs hi hmem hd, ?_, ?_, ?_⟩
  · rw [hqueue, tail_of_takes hs hi]
    simp only [stores_iff hu]
  · rintro rfl hnil
    have he : s.isEmpty = true := by rw [State.isEmpty_iff_used hs hi, ← length_queue, hnil]; rfl
    show (ownRule (.pop .C) s).cStatus = 3#3
    rw [ownRule_pop_empty he]
    rfl
  · rintro rfl hlen
    have hf : s.isFull = true := by rw [State.isFull_iff_toNat, ← length_queue, hlen]
    show (ownRule (.push .P) s).pStatus = 2#3
    rw [ownRule_push_full hf]
    rfl
  · have hcap : (closeCycle s (ownRule iP s) (ownRule iC s)).cap = s.cap := by
      simp [closeCycle, ownRule_cap_of_not_ctl s hctlP, ownRule_cap_of_not_ctl s hctlC]
    rw [hqueue, hcap]
    exact length_after_cycle_le hs hi hu hv1

end Sys2Proof.Machine
end

