-- ==== Sys2Proof/Proofs/Encoding.lean ====
section
/-! PROOFS. The encoding of spec 30_encoding.md: the decoder and the encoder are inverse to each other, the reserved words,
an ILLEGAL word in a cycle, and the text syntax. -/

namespace Sys2Proof

/-! ### The word of a command -/

/-- The fields of every command's word, from the family of `WordFields` (30_encoding.md R70). -/
theorem encode_fields (i : Instr) : opcOf (encode i) = i.opc ∧ rsvOf (encode i) = 0#4 ∧ imm8Of (encode i) = i.imm8 := by
  cases i with
  | nop x => exact Laws.WordFields.nop x
  | init x c => exact Laws.WordFields.init x c
  | flush x => exact Laws.WordFields.flush x
  | used x => exact Laws.WordFields.used x
  | free x => exact Laws.WordFields.free x
  | empty x => exact Laws.WordFields.empty x
  | full x => exact Laws.WordFields.full x
  | push x => exact Laws.WordFields.push x
  | pushu x => exact Laws.WordFields.pushu x
  | pop x => exact Laws.WordFields.pop x
  | popu x => exact Laws.WordFields.popu x
  | peek x => exact Laws.WordFields.peek x

/-- A word with a command's opcode and immediate and no reserved bit set is that command's word. -/
theorem encode_eq_of_fields {i : Instr} {w : Cmd} (ho : i.opc = opcOf w) (hr : rsvOf w = 0#4) (hi : i.imm8 = imm8Of w) :
    encode i = w := by
  apply BitVec.eq_of_toNat_eq
  rw [encode_toNat, word_toNat, ho, hr, hi, BitVec.toNat_ofNat, Nat.zero_mod, Nat.zero_mul, Nat.add_zero]

/-- What the word of a command decodes to on the command's own port: the command, or ILLEGAL by R75's table. -/
theorem decode_encode (i : Instr) :
    decode i.port (encode i) = if i.wf = true then .command i else .illegal .wrongPort := by
  obtain ⟨ho, hr, hi⟩ := encode_fields i
  rw [decode, ho, hr, hi]
  cases i with
  | init x c => rfl
  | nop x | flush x | used x | free x | empty x | full x => rfl
  | push x | pushu x | pop x | popu x | peek x => cases x <;> rfl

/-- The commands of R75's table on the wrong port. -/
theorem wf_eq_false_iff {i : Instr} : i.wf = false ↔ i ∈ [.push .C, .pushu .C, .pop .P, .popu .P, .peek .P] := by
  cases i with
  | nop x | init x c | flush x | used x | free x | empty x | full x => simp [Instr.wf]
  | push x | pushu x | pop x | popu x | peek x => cases x <;> decide

/-! ### The decoder's answers -/

/-- The opcode map is inverse to `Instr.opc` (R74). -/
theorem commandOf_opc {x : Port} {opc : BitVec 4} {imm : Byte} {i : Instr} (h : commandOf x opc imm = .command i) :
    i.opc = opc := by
  unfold commandOf at h
  split at h <;> cases h <;> exact BitVec.eq_of_toNat_eq (Eq.symm ‹opc.toNat = _›)

/-- The opcode map is inverse to `Instr.imm8` where an immediate stands with INIT alone (R71, R74). -/
theorem commandOf_imm8 {x : Port} {opc : BitVec 4} {imm : Byte} {i : Instr} (h : commandOf x opc imm = .command i)
    (himm : ¬ (opc ≠ 0x1#4 ∧ imm ≠ 0#8)) : i.imm8 = imm := by
  obtain rfl := commandOf_opc h
  cases i with
  | init y c => cases h; rfl
  | _ => exact (not_not.mp fun hi => himm ⟨by simp [Instr.opc], hi⟩).symm

/-- The opcode map names a command for every opcode that R78 does not reserve. -/
theorem commandOf_command (x : Port) {opc : BitVec 4} (imm : Byte)
    (h : ¬ (opc = 0x7#4 ∨ opc = 0xD#4 ∨ opc = 0xE#4 ∨ opc = 0xF#4)) : ∃ i, commandOf x opc imm = .command i := by
  have hlt := opc.isLt
  simp only [BitVec.toNat_eq, BitVec.reduceToNat] at h
  unfold commandOf
  split
  case h_13 => simp only [imp_false] at *; omega
  all_goals exact ⟨_, rfl⟩

/-- A word that decodes to a command is that command's word (R76). -/
theorem encode_of_decode {x : Port} {w : Cmd} {i : Instr} (h : decode x w = .command i) : encode i = w := by
  unfold decode at h
  split_ifs at h with hrsv _ himm
  exact encode_eq_of_fields (commandOf_opc h) (not_not.mp hrsv) (commandOf_imm8 h himm)

theorem Port.ne_P_iff {x : Port} : x ≠ .P ↔ x = .C := by cases x <;> decide
theorem Port.ne_C_iff {x : Port} : x ≠ .C ↔ x = .P := by cases x <;> decide

end Sys2Proof

namespace Sys2Proof.Machine

/-! ### A command on the wrong port -/

/-- A command on the wrong port answers ILLEGAL and does nothing else (R75, R77). -/
theorem exec_illegal {i : Instr} (hw : i.wf = false) (s : State) :
    exec i s = .next (s.respond i.port .illegal 0#32) := by
  have ha : isActive i = true := by
    cases i with
    | nop => cases hw
    | _ => rfl
  obtain ⟨go, he⟩ := exec_eq_guarded ha s
  rw [he, guarded_illegal hw]

/-! ### An ILLEGAL word in a cycle -/

/-- A legal command without conflict answers UNINIT where it needs a capacity and there is none, and otherwise follows its
own rule (60_exceptions.md R154). -/
theorem exec_of_no_conflict {i : Instr} {s : State} (hs : s.Inv) (hw : i.wf = true) (hc : inConflict i s = false) :
    exec i s = .next (if s.cap = 0#8 ∧ needsInit i = true then s.respond i.port .uninit 0#32 else ownRule i s) := by
  by_cases h0 : s.cap = 0#8
  · cases i with
    | nop x => simp [exec_nop, needsInit, ownRule]
    | init x c =>
      rw [exec_init, guarded_pass hw hc nofun, ownRule]
      split <;> simp [needsInit]
    | _ => rw [if_pos ⟨h0, rfl⟩]; exact guarded_uninit hw hc h0 rfl
  · rw [if_neg fun h => h0 h.1, exec_eq_ownRule hs h0 hw hc]

/-- Beside an ILLEGAL word the other port's side does what it does beside NOP (R77). -/
theorem runPort_beside_illegal {x : Port} {s : State} {why : Illegal} {l : List CycleIn} (hs : s.Inv)
    (hx : s.decoded x = .illegal why) (hn : { s with inputs := l }.decoded x = .command (.nop x))
    (ho : { s with inputs := l }.decoded x.other = s.decoded x.other)
    (hv : s.pushOperand = { s with inputs := l }.pushOperand) :
    ∃ t u, runPort x.other s = .next t ∧ runPort x.other { s with inputs := l } = .next u ∧ SameEffect x.other t u := by
  cases hj : s.decoded x.other with
  | illegal r => exact ⟨_, _, runPort_illegal hj, runPort_illegal (ho.trans hj), .respond rfl⟩
  | command j =>
    have hport : j.port.other = x := by rw [decode_port hj, Port.other_other]
    have hcs : inConflict j s = false := by rw [inConflict, hport, hx]
    have hcn : inConflict j { s with inputs := l } = false := by
      rw [inConflict_eq_clash (j := .nop x) (by rw [hport, hn]), clash_nop]
    rw [runPort_command hj, runPort_command (ho.trans hj), ← decode_port hj]
    refine ⟨_, _, exec_of_no_conflict hs (decode_wf hj) hcs, exec_of_no_conflict hs (decode_wf hj) hcn, ?_⟩
    show SameEffect _ (if s.cap = 0#8 ∧ _ then _ else _) (if s.cap = 0#8 ∧ _ then _ else _)
    split
    · exact .respond rfl
    · exact ownRule_congr (decode_wf hj) rfl rfl hv fun _ => rfl

/-! ### The cycles of a `repeat` -/

/-- A list whose every element has a value maps to the list of those values, in order. -/
theorem getElem?_of_mapM_eq_some {α β : Type} {f : α → Option β} {l : List α} {cs : List β} (h : l.mapM f = some cs) :
    cs.length = l.length ∧ ∀ (k : Nat) (a : α), l[k]? = some a → f a = cs[k]? := by
  induction l generalizing cs with
  | nil =>
    obtain rfl : cs = [] := by simpa using h.symm
    exact ⟨rfl, nofun⟩
  | cons a l ih =>
    simp only [List.mapM_cons, Option.bind_eq_bind, Option.bind_eq_some_iff, Option.pure_def, Option.some.injEq] at h
    obtain ⟨b, hb, bs, hbs, rfl⟩ := h
    obtain ⟨hlen, hget⟩ := ih hbs
    refine ⟨congrArg (· + 1) hlen, fun k a' hk => ?_⟩
    cases k with
    | zero => cases hk; exact hb
    | succ k => exact hget k a' hk

/-! ### The obligations -/

/-- Settles O1: the word's fields are the command's, and the decoder's tests pass on its own port. -/
theorem decodeOfEncodeIsTheCommand : Obligations.DecodeOfEncodeIsTheCommand :=
  fun i hw => by rw [decode_encode, if_pos hw]

/-- Settles O2: the opcode map is invertible, and a word is its three fields. -/
theorem decodedWordIsTheCommandsEncoding : Obligations.DecodedWordIsTheCommandsEncoding :=
  fun _ _ _ h => ⟨decode_wf h, decode_port h, encode_of_decode h⟩

/-- Settles O3: the decoder's tests are the classes of R78, and what passes them all is a command. -/
theorem reservedWordsAreExactlyTheIllegalOnes : Obligations.ReservedWordsAreExactlyTheIllegalOnes := by
  intro x w
  unfold decode
  split_ifs with hrsv hopc himm hP hC
  · exact iff_of_true ⟨_, rfl⟩ (.inr (.inl hrsv))
  · exact iff_of_true ⟨_, rfl⟩ (.inl hopc)
  · exact iff_of_true ⟨_, rfl⟩ (.inr (.inr (.inl himm)))
  · exact iff_of_true ⟨_, rfl⟩ (.inr (.inr (.inr (.inl ⟨Port.ne_P_iff.mp hP.2, hP.1⟩))))
  · exact iff_of_true ⟨_, rfl⟩ (.inr (.inr (.inr (.inr ⟨Port.ne_C_iff.mp hC.2, hC.1⟩))))
  · obtain ⟨i, hi⟩ := commandOf_command x (imm8Of w) hopc
    rw [hi]
    refine iff_of_false nofun ?_
    rintro (h | h | h | ⟨rfl, h⟩ | ⟨rfl, h⟩)
    · exact hopc h
    · exact hrsv h
    · exact himm h
    · exact hP ⟨h, nofun⟩
    · exact hC ⟨h, nofun⟩

/-- Settles O4: the word of a command is ILLEGAL exactly where R75's table refuses the command. -/
theorem portLegalityDecidesIllegal : Obligations.PortLegalityDecidesIllegal := by
  intro i
  refine ⟨?_, fun s hmem => exec_illegal (wf_eq_false_iff.mpr hmem) s⟩
  rw [decode_encode, ← wf_eq_false_iff]
  cases hw : i.wf with
  | true => exact iff_of_false nofun nofun
  | false => exact iff_of_true ⟨_, rfl⟩ rfl

/-- Settles O6: the `k`-th value of the `repeat` is `a + k`, and each gives one cycle's inputs. -/
theorem textExpansion : Obligations.TextExpansion := by
  refine ⟨fun _ => ⟨rfl, rfl⟩, fun w a b p c cs hab h => ?_⟩
  obtain ⟨hlen, hget⟩ := getElem?_of_mapM_eq_some h
  rw [List.length_range] at hlen
  exact ⟨by omega, fun k hk => hget k k (List.getElem?_range (hlen ▸ hk))⟩

/-- Settles O9: an ILLEGAL word only answers, as NOP does, and the other port's side is the same beside both. -/
theorem illegalWordIsAnsweredAndInactive : Obligations.IllegalWordIsAnsweredAndInactive := by
  intro s hs hr
  constructor
  · intro why hP
    obtain ⟨t, u, ht, hu, hblock, hst, hdata⟩ := runPort_beside_illegal (x := .P)
      (l := { s.pins with pCmd := 0x0000#16 } :: s.inputs.tail) hs hP (decode_nop .P) rfl rfl
    exact ⟨_, _, step_ports hr (runPort_illegal hP) ht, step_ports hr (runPort_nop (x := .P) rfl) hu, rfl, rfl,
      (joinPorts_block_right rfl).trans (hblock.trans (joinPorts_block_right rfl).symm), hst, hdata, rfl⟩
  · intro why hC
    obtain ⟨t, u, ht, hu, hblock, hst, hdata⟩ := runPort_beside_illegal (x := .C)
      (l := { s.pins with cCmd := 0x0000#16 } :: s.inputs.tail) hs hC (decode_nop .C) rfl rfl
    exact ⟨_, _, step_ports hr ht (runPort_illegal hC), step_ports hr hu (runPort_nop (x := .C) rfl), rfl, rfl,
      (joinPorts_block_left rfl).trans (hblock.trans (joinPorts_block_left rfl).symm), hst, hdata, rfl⟩

/-- Settles O5: the command words are encodings, so O1 reads them; the ILLEGAL words fail a test of the decoder. -/
theorem exampleWordsDecode : Obligations.ExampleWordsDecode := by
  have word (i : Instr) (hw : i.wf = true) : decode i.port (encode i) = .command i := decodeOfEncodeIsTheCommand i hw
  refine ⟨word (.nop .P) rfl, word (.init .P 4#8) rfl, word (.init .C 128#8) rfl, word (.init .P 3#8) rfl, ?_,
    word (.flush .C) rfl, word (.used .P) rfl, word (.free .C) rfl, word (.empty .C) rfl, word (.full .P) rfl, ?_,
    word (.push .P) rfl, ?_, word (.pushu .P) rfl, word (.pop .C) rfl, word (.popu .C) rfl, word (.peek .C) rfl,
    ?_, ?_, ?_, ?_, ?_, by decide, by decide⟩
  case refine_1 =>
    have hc : inConflict (.init .P 3#8) State.reset = false := by decide
    rw [exec_init, guarded_pass rfl hc nofun, if_neg (by decide)]
  case refine_2 | refine_3 => intro w; cases w <;> rfl
  all_goals intro x; cases x <;> decide

end Sys2Proof.Machine
end

