-- ==== Sys2Proof/Proofs/IndexOccupancy.lean ====
section
/-! PROOFS. The two combinational sub-blocks of spec 40_index_occupancy.md: index advance, slots, the occupancy counts and
their laws, what misuse of the unchecked commands leaves, and that a cycle within contract keeps `used <= N`. -/

namespace Sys2Proof.Machine

/-! ### Index arithmetic -/

/-- R90: the mask is `2N - 1`, for `N = 128` too. -/
theorem maskOf_toNat {p : Params} {c : Byte} (hv : validCap p c = true) : (maskOf c).toNat = 2 * c.toNat - 1 := by
  have hpos := cap_pos hv
  have hle := cap_le hv
  rw [maskOf, BitVec.toNat_sub, BitVec.toNat_mul, BitVec.toNat_ofNat, BitVec.toNat_ofNat]
  omega

/-- R91: the top index `2N - 1` advances to 0. -/
theorem nextIndex_mask {p : Params} {c : Byte} (hv : validCap p c = true) : nextIndex c (maskOf c) = 0#8 := by
  have hpos := cap_pos hv
  apply BitVec.eq_of_toNat_eq
  rw [nextIndex_toNat _ hv, maskOf_toNat hv, Nat.sub_add_cancel (by omega), Nat.mod_self]
  rfl

/-- R92: indices `N` apart modulo `2N` are equal modulo `N`. -/
theorem add_cap_mod (x n : Nat) : (x + n) % (2 * n) % n = x % n := by
  rw [Nat.mod_mod_of_dvd _ (Nat.dvd_mul_left n 2), Nat.add_mod_right]

theorem slotOf_add_cap {p : Params} {c : Byte} (x : Byte) (hv : validCap p c = true) :
    slotOf c ((x + c) &&& maskOf c) = slotOf c x := by
  apply BitVec.eq_of_toNat_eq
  rw [slotOf_toNat _ hv, slotOf_toNat _ hv, and_mask_toNat _ hv, BitVec.toNat_add,
    Nat.mod_mod_of_dvd _ (two_cap_dvd hv), add_cap_mod]

/-- R92: the two indices name one slot when they agree and when they are `N` apart. -/
theorem pushSlot_eq_popSlot {s : State} (hv : validCap s.params s.cap = true)
    (h : s.wr = s.rd ∨ s.wr.toNat = (s.rd.toNat + s.cap.toNat) % (2 * s.cap.toNat)) : s.pushSlot = s.popSlot := by
  obtain heq | hapart := h
  · rw [State.pushSlot, State.popSlot, heq]
  · apply BitVec.eq_of_toNat_eq
    rw [State.pushSlot, State.popSlot, slotOf_toNat _ hv, slotOf_toNat _ hv, hapart, add_cap_mod]

/-! ### The counts -/

/-- R97: without a capacity the indices are 0, so they agree. -/
theorem State.Inv.wr_eq_rd {s : State} (hs : s.Inv) (h0 : s.cap = 0#8) : s.wr = s.rd := by
  obtain ⟨-, ⟨hzero, -⟩, -⟩ := hs
  obtain ⟨hr, hw⟩ := hzero h0
  rw [hr, hw]

theorem usedCount_eq_zero {s : State} (h : s.wr = s.rd) : s.usedCount = 0#8 := by
  rw [State.usedCount, h, BitVec.sub_self, BitVec.zero_and]

/-- R93 over the integers: `2N` divides 256, so the 8-bit difference is the exact one modulo `2N`. -/
theorem usedCount_eq_emod {s : State} (hv : validCap s.params s.cap = true) :
    (s.usedCount.toNat : Int) = ((s.wr.toNat : Int) - s.rd.toNat) % (2 * s.cap.toNat) := by
  have hrd := s.rd.isLt
  have hdvd : ((2 * s.cap.toNat : Nat) : Int) ∣ (256 : Nat) := Int.natCast_dvd_natCast.mpr (two_cap_dvd hv)
  have hsum : ((s.wr.toNat + (256 - s.rd.toNat) : Nat) : Int) = (s.wr.toNat - s.rd.toNat) + (256 : Nat) := by omega
  rw [usedCount_toNat hv, Int.natCast_mod, hsum, Int.add_emod, Int.emod_eq_zero_of_dvd hdvd, add_zero, Int.emod_emod]
  norm_cast

/-- The used count stays below `2N` where there is a capacity, and is 0 otherwise (R93, R97). -/
theorem usedCount_bound {s : State} (hs : s.Inv) : s.usedCount.toNat ≤ 2 * s.cap.toNat - 1 := by
  by_cases h0 : s.cap = 0#8
  · rw [usedCount_eq_zero (hs.wr_eq_rd h0), BitVec.toNat_ofNat]
    exact Nat.zero_le _
  · exact Nat.le_sub_one_of_lt (usedCount_lt (hs.valid h0))

theorem State.Inv.cap_le {s : State} (hs : s.Inv) : s.cap.toNat ≤ 128 := by
  obtain ⟨h0 | hv, -⟩ := hs
  · rw [h0]; decide
  · exact Machine.cap_le hv

/-- R94: the free count, which wraps where more than `N` is used. -/
theorem freeCount_toNat (s : State) : s.freeCount.toNat =
    if s.usedCount.toNat ≤ s.cap.toNat then s.cap.toNat - s.usedCount.toNat
    else 256 + s.cap.toNat - s.usedCount.toNat := by
  have hcap := s.cap.isLt
  have hused := s.usedCount.isLt
  rw [State.freeCount, BitVec.toNat_sub]
  split <;> omega

/-- R98 law 3: in an initialized state `empty` and `full` are never both true. -/
theorem not_empty_and_full {s : State} (hi : s.Initialized) : ¬ (s.isEmpty = true ∧ s.isFull = true) := by
  rintro ⟨he, hf⟩
  rw [isFull_of_empty hi ((State.isEmpty_iff s).mp he)] at hf
  cases hf

/-! ### Misuse of the unchecked commands -/

/-- An unchecked command of an initialized block follows its own rule beside any command but INIT and FLUSH. -/
theorem exec_unchecked {i : Instr} {s : State} (hs : s.Inv) (hi : s.Initialized) (hmem : i ∈ [.pushu .P, .popu .C])
    (hn : s.otherCtl i.port = false) : exec i s = .next (ownRule i s) := by
  obtain ⟨hw, hc, ha⟩ := (by decide : ∀ i ∈ [Instr.pushu .P, .popu .C],
    i.wf = true ∧ isCtl i = false ∧ isActive i = true) i hmem
  exact exec_eq_ownRule hs hi hw (by rw [inConflict_of_data hc ha, hn])

/-- At any occupancy a push raises the used count by one modulo `2N`. -/
theorem usedCount_pushed_mod {s : State} (x : Port) (hv : validCap s.params s.cap = true) :
    (s.pushed x).usedCount.toNat = (s.usedCount.toNat + 1) % (2 * s.cap.toNat) := by
  have hv' : validCap (s.pushed x).params (s.pushed x).cap = true := by simpa using hv
  rw [usedCount_toNat hv', usedCount_toNat hv, State.pushed_cap, State.pushed_rd, State.pushed_wr,
    nextIndex_toNat _ hv, Nat.mod_add_mod, Nat.mod_add_mod, Nat.add_right_comm]

/-- POPU on an empty buffer leaves `2N - 1` used (R99). -/
theorem usedCount_popu_empty {s : State} (hs : s.Inv) (hi : s.Initialized) (he : s.isEmpty = true) :
    (ownRule (.popu .C) s).usedCount.toNat = 2 * s.cap.toNat - 1 := by
  have hv := hs.valid hi
  obtain ⟨hr, hw⟩ := hs.index_bounds hi
  have heq : s.wr.toNat = s.rd.toNat := congrArg BitVec.toNat ((State.isEmpty_iff s).mp he)
  rw [ownRule_popu_empty he, State.respond_usedCount,
    usedCount_eq (s := s.advanceRd.countDraw) hv (nextIndex_lt s.rd hv) hw]
  simp only [State.countDraw_cap, State.countDraw_rd, State.countDraw_wr, State.advanceRd_cap, State.advanceRd_rd,
    State.advanceRd_wr, nextIndex_eq hv hr]
  split_ifs <;> omega

/-- After a push its slot holds its element (R120). -/
theorem readSlot_pushed (s : State) (x : Port) : (s.pushed x).readSlot s.pushSlot.toNat = s.pushOperand :=
  calc (s.pushed x).readSlot s.pushSlot.toNat
      = (s.writeSlot s.pushSlot.toNat s.pushOperand).readSlot s.pushSlot.toNat :=
        State.readSlot_congr (s := s.writeSlot s.pushSlot.toNat s.pushOperand) (State.pushed_params s x)
          (State.pushed_mem s x) _
    _ = s.pushOperand := by rw [State.readSlot_writeSlot_same, fit_pushOperand]

theorem State.Inv.pushed {s : State} (hs : s.Inv) (x : Port) (hi : s.Initialized) : (s.pushed x).Inv :=
  hs.of_indices (State.pushed_params s x) (State.pushed_cap s x) (.inl (State.pushed_rd s x))
    (.inr ⟨hi, State.pushed_wr s x⟩)
    (hs.storageOk.write (slotOf_lt_maxCap s.wr (hs.valid hi)) (State.pushed_params s x) (State.pushed_mem s x))

theorem two_le_cap {s : State} (hi : s.Initialized) (h1 : s.cap ≠ 1#8) : 2 ≤ s.cap.toNat := by
  rw [State.Initialized, Ne, ← BitVec.toNat_inj, BitVec.toNat_ofNat] at hi
  rw [Ne, ← BitVec.toNat_inj, BitVec.toNat_ofNat] at h1
  omega

/-- PUSHU on a full buffer of one slot: it reads as empty, and the slot holds the new element (R99). -/
theorem pushed_full_of_one_slot {s : State} (hs : s.Inv) (hi : s.Initialized) (hf : s.isFull = true)
    (h1 : s.cap = 1#8) :
    (s.pushed .P).isEmpty = true ∧ (s.pushed .P).wr = s.rd ∧ (s.pushed .P).readSlot 0 = s.pushOperand := by
  have hv := hs.valid hi
  have hslot : s.pushSlot.toNat = 0 := by
    rw [State.pushSlot, slotOf_toNat _ hv, h1]
    exact Nat.mod_one _
  have he : (s.pushed .P).isEmpty = true := by
    rw [State.isEmpty_iff_used (hs.pushed .P hi) hi, usedCount_pushed_mod .P hv, (State.isFull_iff_toNat s).mp hf, h1]
    rfl
  exact ⟨he, (State.isEmpty_iff _).mp he, hslot ▸ readSlot_pushed s .P⟩

/-- PUSHU on a full buffer of more slots: one element too many is used (R99). -/
theorem usedCount_pushed_full {s : State} (hs : s.Inv) (hi : s.Initialized) (hf : s.isFull = true)
    (h1 : s.cap ≠ 1#8) : (s.pushed .P).usedCount.toNat = s.cap.toNat + 1 := by
  have hcap := two_le_cap hi h1
  rw [usedCount_pushed_mod .P (hs.valid hi), (State.isFull_iff_toNat s).mp hf, Nat.mod_eq_of_lt (by omega)]

/-- POPU on an empty buffer of one slot: it reads as full (R99). -/
theorem popu_empty_of_one_slot {s : State} (hs : s.Inv) (hi : s.Initialized) (he : s.isEmpty = true)
    (h1 : s.cap = 1#8) :
    (ownRule (.popu .C) s).isFull = true ∧ (ownRule (.popu .C) s).rd.toNat = (s.wr.toNat + 1) % 2 := by
  have hcap : (ownRule (.popu .C) s).cap = s.cap := ownRule_cap_of_not_ctl s rfl
  constructor
  · rw [State.isFull_iff_toNat, usedCount_popu_empty hs hi he, hcap, h1]
    rfl
  · rw [ownRule_popu_empty he, (State.isEmpty_iff s).mp he]
    exact (nextIndex_toNat s.rd (hs.valid hi)).trans (by rw [h1]; rfl)

/-! ### A cycle within contract -/

/-- An index that a step changes became 0 or advanced (R91). -/
theorem step_indices {s t : State} (h : step s = .next t) :
    (t.rd = s.rd ∨ t.rd = 0#8 ∨ t.rd = nextIndex s.cap s.rd) ∧
      (t.wr = s.wr ∨ t.wr = 0#8 ∨ t.wr = nextIndex s.cap s.wr) := by
  obtain ⟨-, rfl⟩ | ⟨hr, -⟩ := step_next h
  · exact ⟨.inr (.inl rfl), .inr (.inl rfl)⟩
  · obtain ⟨-, hrd, hwr, -⟩ | ⟨-, hpush, hpop⟩ := step_effect h hr
    · exact ⟨.inr (.inl hrd), .inr (.inl hwr)⟩
    · exact ⟨hpop.imp_right fun h => .inr h.2, hpush.imp And.left fun ⟨_, _, hwr, _⟩ => .inr hwr⟩

/-- Indices that agree leave nothing used, so the state is not corrupted. -/
theorem State.Uncorrupted.of_wr_eq_rd {s : State} (h : s.wr = s.rd) : s.Uncorrupted := by
  rw [State.Uncorrupted, usedCount_eq_zero h]
  exact Nat.zero_le _

theorem State.Uncorrupted.congr {s t : State} (hs : s.Uncorrupted) (h : t.block = s.block) : t.Uncorrupted := by
  rwa [State.Uncorrupted, (State.flags_congr h).1, (State.block_eq_iff.mp h).1]

/-- A cycle of an uninitialized block leaves the indices equal: a push or a pop would need a capacity. -/
theorem step_uncorrupted_of_uninitialized {s t : State} (hs : s.Inv) (h0 : s.cap = 0#8) (hr : s.pins.rst = false)
    (h : step s = .next t) : t.Uncorrupted := by
  obtain ⟨-, hrd, hwr, -⟩ | ⟨-, ⟨hwr, -⟩ | ⟨hi, -⟩, hrd | ⟨hi, -⟩⟩ := step_effect h hr
  · exact .of_wr_eq_rd (hwr.trans hrd.symm)
  · exact .of_wr_eq_rd (hwr.trans ((hs.wr_eq_rd h0).trans hrd.symm))
  all_goals exact absurd h0 hi

/-- V6 left out: each port's word is a command (R160). -/
theorem decoded_command_of_not_violated {s p c : State} (hP : runPort .P s = .next p) (hC : runPort .C s = .next c)
    (hviol : (closeCycle s p c).violated = false) :
    (∃ i, s.decoded .P = .command i) ∧ ∃ j, s.decoded .C = .command j := by
  have hv6 := commits_eq_false hviol .illegalWord
  simp only [commits, returned, Bool.or_eq_false_iff, beq_eq_false_iff_ne] at hv6
  obtain ⟨hnP, hnC⟩ := hv6
  constructor
  · cases hd : s.decoded .P with
    | command i => exact ⟨i, rfl⟩
    | illegal r => rw [runPort_illegal hd] at hP; cases hP; exact absurd rfl hnP
  · cases hd : s.decoded .C with
    | command j => exact ⟨j, rfl⟩
    | illegal r => rw [runPort_illegal hd] at hC; cases hC; exact absurd rfl hnC

/-- V4 and V6 left out: a cycle within contract presents two commands that do not conflict (R160). -/
theorem presentsPair_of_not_violated {s p c : State} (hP : runPort .P s = .next p) (hC : runPort .C s = .next c)
    (hviol : (closeCycle s p c).violated = false) : ∃ iP iC, PresentsPair s iP iC := by
  obtain ⟨⟨iP, hdP⟩, iC, hdC⟩ := decoded_command_of_not_violated hP hC hviol
  have hv4 := commits_eq_false hviol .conflicting
  simp only [commits, returned, Bool.or_eq_false_iff, beq_eq_false_iff_ne] at hv4
  obtain ⟨hnP, hnC⟩ := hv4
  rw [runPort_command hdP] at hP
  rw [runPort_command hdC] at hC
  refine ⟨iP, iC, hdP, hdC, ?_⟩
  by_cases hctlP : isCtl iP = true
  · obtain ⟨rfl, -⟩ := ctl_excludes_other (x := .P) hdP hdC hP hC hctlP hnP
    exact clash_nop ..
  · by_cases hctlC : isCtl iC = true
    · obtain ⟨rfl, -⟩ := ctl_excludes_other (x := .C) hdC hdP hC hP hctlC hnC
      rw [clash_comm]
      exact clash_nop ..
    · exact clash_of_not_ctl (by simpa using hctlP) (by simpa using hctlC)

/-- INIT and FLUSH zero the indices, and an INIT that fails keeps the block (41_init.md R101, R103). -/
theorem ownRule_uncorrupted_of_ctl {i : Instr} {s : State} (hc : isCtl i = true) (hu : s.Uncorrupted) :
    (ownRule i s).Uncorrupted := by
  cases i with
  | init x c =>
    simp only [ownRule]
    split
    · exact .of_wr_eq_rd (by simp)
    · exact hu.congr (State.respond_block ..)
  | flush x => exact .of_wr_eq_rd (by simp [ownRule])
  | _ => cases hc

/-- Beside INIT or FLUSH a command without conflict keeps the block: it is NOP (R155). -/
theorem ownRule_block_of_clash_false {i j : Instr} {s : State} (hc : isCtl i = true) (hn : clash i j = false) :
    (ownRule j s).block = s.block := by
  cases j with
  | nop x => exact State.respond_block ..
  | _ => simp [clash, hc, isActive] at hn

/-- A cycle within contract of an initialized block keeps `used <= N`: INIT and FLUSH have the block to themselves, and
otherwise the queue after the cycle is within the capacity. -/
theorem closeCycle_uncorrupted {s : State} {iP iC : Instr} (hs : s.Inv) (hi : s.Initialized) (hu : s.Uncorrupted)
    (hpair : PresentsPair s iP iC) (hviol : (closeCycle s (ownRule iP s) (ownRule iC s)).violated = false) :
    (closeCycle s (ownRule iP s) (ownRule iC s)).Uncorrupted := by
  have ⟨_, _, hn⟩ := hpair
  by_cases hctlP : isCtl iP = true
  · exact (ownRule_uncorrupted_of_ctl hctlP hu).congr (joinPorts_block_left (ownRule_block_of_clash_false hctlP hn))
  · by_cases hctlC : isCtl iC = true
    · rw [clash_comm] at hn
      exact (ownRule_uncorrupted_of_ctl hctlC hu).congr
        (joinPorts_block_right (ownRule_block_of_clash_false hctlC hn))
    · rw [Bool.not_eq_true] at hctlP hctlC
      have hv1 := takes_of_pushu_full hpair hi hviol
      have hv2 := not_popu_empty hpair hi hviol
      have hcap : (closeCycle s (ownRule iP s) (ownRule iC s)).cap = s.cap := by
        simp [closeCycle, ownRule_cap_of_not_ctl s hctlP, ownRule_cap_of_not_ctl s hctlC]
      rw [State.Uncorrupted, ← length_queue, queue_closeCycle hs hi hu hpair hctlP hctlC hv1 hv2, hcap]
      exact length_after_cycle_le hs hi hu hv1

/-! ### The obligations -/

/-- Settles O56: a reset zeroes the indices, a cycle of an uninitialized block keeps them equal, and in an initialized one
a cycle that leaves the flag clear presents two commands within contract. -/
theorem stepKeepsUsedWithinCapacity : Obligations.StepKeepsUsedWithinCapacity := by
  intro s t hs hbound h hviol
  obtain ⟨-, rfl⟩ | ⟨hr, p, c, hP, hC, rfl⟩ := step_next h
  · exact .of_wr_eq_rd rfl
  · by_cases h0 : s.cap = 0#8
    · exact step_uncorrupted_of_uninitialized hs h0 hr h
    · obtain ⟨hclear, -⟩ : s.violated = false ∧ _ := Bool.or_eq_false_iff.mp hviol
      obtain ⟨iP, iC, hpair⟩ := presentsPair_of_not_violated hP hC hviol
      obtain ⟨hrunP, hrunC⟩ := hpair.runPorts hs h0
      rw [hrunP] at hP
      rw [hrunC] at hC
      cases hP
      cases hC
      exact closeCycle_uncorrupted hs h0 (hbound hclear) hpair hviol

/-- Settles O20: the flags of three zero registers by definition, and the queries stop at the ladder's UNINIT rung. -/
theorem uninitializedOutputsAndQueries : Obligations.UninitializedOutputsAndQueries := by
  refine ⟨fun s hc hr hw => ⟨?_, fun x hn i hmem => ?_⟩, fun s _ hi => not_empty_and_full hi⟩
  · simp [State.statusOutputs, State.freeCount, State.isEmpty, State.isFull, usedCount_eq_zero (hw.trans hr.symm), hc,
      hr, hw]
  · have uninit (j : Instr) (hx : j.port = x) (hwf : j.wf = true) (hctl : isCtl j = false) (ha : isActive j = true)
        (hneed : needsInit j = true) : exec j s = .next (s.respond x .uninit 0#32) := by
      obtain ⟨go, he⟩ := exec_eq_guarded ha s
      rw [he, guarded_uninit hwf (by rw [inConflict_of_data hctl ha, hx, hn]) hc hneed, hx]
    simp only [List.mem_cons, List.not_mem_nil, or_false] at hmem
    obtain rfl | rfl | rfl | rfl := hmem <;> exact uninit _ rfl rfl rfl rfl rfl

/-- Settles O21: the mask reduces modulo `2N`, and the range is the invariant's, which the step keeps. -/
theorem indexAdvancesModuloTwiceTheCapacity : Obligations.IndexAdvancesModuloTwiceTheCapacity := by
  refine ⟨fun p c x hv _ => nextIndex_toNat x hv, fun p c hv => nextIndex_mask hv, fun s t hs h => ?_⟩
  obtain ⟨hrd, hwr⟩ := step_indices h
  exact ⟨hrd, hwr, (step_inv hs h).index_bounds⟩

/-- Settles O22: the slot mask reduces modulo `N`, which divides `2N`. -/
theorem slotIsTheIndexModuloTheCapacity : Obligations.SlotIsTheIndexModuloTheCapacity :=
  ⟨fun _ _ x hv => ⟨slotOf_toNat x hv, slotOf_add_cap x hv⟩, fun _ hs hi h => pushSlot_eq_popSlot (hs.valid hi) h⟩

/-- Settles O23: `2N` divides 256, so the wrapped difference and the exact one agree modulo `2N`. -/
theorem usedCountIsTheIndexDifference : Obligations.UsedCountIsTheIndexDifference :=
  fun _ hs hi => ⟨usedCount_eq_emod (hs.valid hi), usedCount_lt (hs.valid hi)⟩

/-- Settles O24: the 8-bit difference wraps once at most, and `used` is at most `2N - 1`. -/
theorem freeCountWrapsInACorruptedState : Obligations.FreeCountWrapsInACorruptedState := by
  intro s hs
  have hbound := usedCount_bound hs
  have hcap := hs.cap_le
  rw [freeCount_toNat]
  constructor <;> intro hu
  · rw [if_pos hu]
    exact ⟨rfl, Nat.sub_le _ _⟩
  · rw [if_neg (not_le.mpr hu)]
    omega

/-- Settles O25: in range the indices agree exactly when their difference is 0, and without a capacity both hold. -/
theorem emptyExactlyWhenNothingIsUsed : Obligations.EmptyExactlyWhenNothingIsUsed := by
  intro s hs
  refine ⟨State.isEmpty_iff s, ?_⟩
  by_cases h0 : s.cap = 0#8
  · have heq := hs.wr_eq_rd h0
    exact iff_of_true ((State.isEmpty_iff s).mpr heq) (usedCount_eq_zero heq)
  · rw [State.isEmpty_iff_used hs h0, ← BitVec.toNat_inj]
    rfl

/-- Settles O26: the free count does not wrap, and equal indices leave a capacity unused. -/
theorem occupancyLawsWithinContract : Obligations.OccupancyLawsWithinContract := by
  intro s hs hi hu
  refine ⟨?_, State.isEmpty_iff_used hs hi, State.isFull_iff_toNat s, not_empty_and_full hi⟩
  rw [freeCount_toNat, if_pos hu, Nat.add_sub_cancel' hu]

/-- Settles O51: the push moves `wr` past the full mark, and the pop moves `rd` past `wr`, both modulo `2N`. -/
theorem uncheckedMisuseCorners : Obligations.UncheckedMisuseCorners := by
  intro s hs hi
  constructor
  · intro hn hf
    refine ⟨s.pushed .P, exec_unchecked hs hi (by simp) hn, rfl, pushed_full_of_one_slot hs hi hf, fun h1 => ?_⟩
    have hused := usedCount_pushed_full hs hi hf h1
    refine ⟨hused, ?_⟩
    rw [State.Uncorrupted, hused, State.pushed_cap]
    exact Nat.not_succ_le_self _
  · intro hn he
    refine ⟨ownRule (.popu .C) s, exec_unchecked hs hi (by simp) hn, ?_, popu_empty_of_one_slot hs hi he, fun h1 => ?_⟩
    · rw [ownRule_popu_empty he]; rfl
    · have hused := usedCount_popu_empty hs hi he
      have hcap := two_le_cap hi h1
      refine ⟨hused, ?_⟩
      rw [State.Uncorrupted, hused, ownRule_cap_of_not_ctl s rfl]
      omega

end Sys2Proof.Machine
end

