-- ==== Sys2Proof/Proofs/Init.lean ====
section
/-! PROOFS. Initialization of spec 41_init.md: the valid capacities, INIT's ladder and its fresh buffer, a failing INIT, and
the frame of the control commands and the queries. -/

namespace Sys2Proof

/-- The word of INIT: opcode 1 above the capacity (30_encoding.md R70, R80). -/
theorem encode_init (x : Port) (c : Byte) : encode (.init x c) = 0x1000#16 ||| c.setWidth 16 := by
  have hlow : c.toNat < 2 ^ 12 := lt_trans c.isLt (by decide)
  apply BitVec.eq_of_toNat_eq
  rw [encode_toNat, BitVec.toNat_or, BitVec.toNat_setWidth_of_le (by decide), Instr.opc, Instr.imm8, BitVec.toNat_ofNat,
    BitVec.toNat_ofNat]
  exact Nat.two_pow_add_eq_or_of_lt hlow 1

end Sys2Proof

namespace Sys2Proof.Machine

/-! ### Valid capacities -/

/-- The 8-bit powers of two. -/
theorem isPow2_iff_mem {c : Byte} :
    isPow2 c = true ↔ c ∈ [1#8, 2#8, 4#8, 8#8, 16#8, 32#8, 64#8, 128#8] := by
  revert c; decide

theorem isPow2_iff {c : Byte} : isPow2 c = true ↔ ∃ k, c.toNat = 2 ^ k := by
  constructor
  · intro h
    obtain rfl | rfl | rfl | rfl | rfl | rfl | rfl | rfl := isPow2_cases h
    exacts [⟨0, rfl⟩, ⟨1, rfl⟩, ⟨2, rfl⟩, ⟨3, rfl⟩, ⟨4, rfl⟩, ⟨5, rfl⟩, ⟨6, rfl⟩, ⟨7, rfl⟩]
  · rintro ⟨k, hk⟩
    have hk8 : k < 8 := (Nat.pow_lt_pow_iff_right one_lt_two).mp (hk ▸ c.isLt)
    obtain rfl : c = BitVec.ofNat 8 (2 ^ k) := by rw [← hk, BitVec.ofNat_toNat, BitVec.setWidth_eq]
    exact (by decide : ∀ k < 8, isPow2 (BitVec.ofNat 8 (2 ^ k)) = true) k hk8

/-- R100, as arithmetic. -/
theorem validCap_iff {p : Params} {c : Byte} : validCap p c = true ↔ (∃ k, c.toNat = 2 ^ k) ∧ c.toNat ≤ p.maxCap := by
  rw [validCap, Bool.and_eq_true, decide_eq_true_iff, isPow2_iff]

/-! ### A fresh buffer -/

/-- The status outputs are a function of the block (10_state.md R33). -/
theorem State.statusOutputs_congr {s t : State} (h : t.block = s.block) : t.statusOutputs = s.statusOutputs := by
  obtain ⟨hused, hfree, hempty, hfull, -⟩ := State.flags_congr h
  rw [State.statusOutputs, State.statusOutputs, hused, hfree, hempty, hfull]

/-- An initialized buffer whose indices agree shows itself empty, with its whole capacity free. -/
theorem State.statusOutputs_of_wr_eq_rd {s : State} (h : s.wr = s.rd) (hi : s.Initialized) :
    s.statusOutputs = { usedCount := 0#8, freeCount := s.cap, empty := 1#1, full := 0#1 } := by
  have hfree : s.freeCount = s.cap := by rw [State.freeCount, usedCount_eq_zero h, BitVec.sub_zero]
  rw [State.statusOutputs, usedCount_eq_zero h, hfree, (State.isEmpty_iff s).mpr h, isFull_of_empty hi h]
  rfl

/-! ### What a command keeps -/

/-- A command that did not answer OK answered its status with data 0, and did nothing else (60_exceptions.md R150). -/
theorem Does.eq_respond_of_not_ok {i : Instr} {s t : State} (h : Does s i t) (hs : t.statusOn i.port ≠ 0#3) :
    ∃ st : Status, st ≠ .ok ∧ t = s.respond i.port st 0#32 := by
  cases h with
  | answers _ st d hd he =>
    rw [State.statusOn_respond, Ne, Status.code_eq_zero] at hs
    exact ⟨st, hs, by rw [he hs]⟩
  | inits | flushes => exact absurd (State.statusOn_respond ..) hs
  | pushes | pushesUnchecked | pops | popsUnchecked | popsEmpty | peeksEmpty => exact absurd rfl hs

/-- Only POPU and PEEK draw a free value. -/
theorem Does.draws_eq {i : Instr} {s t : State} (h : Does s i t) (h₁ : i ≠ .popu .C) (h₂ : i ≠ .peek .C) :
    t.draws = s.draws := by
  cases h with
  | answers => exact State.respond_draws ..
  | inits | flushes => simp only [State.respond_draws, State.zeroIndices_draws, State.setCap_draws]
  | pushes | pushesUnchecked | pops => rfl
  | popsUnchecked | popsEmpty => exact absurd rfl h₁
  | peeksEmpty => exact absurd rfl h₂

/-- Only INIT assigns the capacity (10_state.md R20). -/
theorem Does.cap_eq {i : Instr} {s t : State} (h : Does s i t) (hn : ∀ x c, i ≠ .init x c) : t.cap = s.cap := by
  cases h with
  | answers => exact State.respond_cap ..
  | inits x c => exact absurd rfl (hn x c)
  | flushes => simp only [State.respond_cap, State.zeroIndices_cap]
  | pushes | pushesUnchecked | pops | popsUnchecked | popsEmpty | peeksEmpty => rfl

/-- Only INIT, FLUSH, POP and POPU move `rd` (10_state.md R22). -/
theorem Does.rd_eq {i : Instr} {s t : State} (h : Does s i t) (hc : isCtl i = false) (h₁ : i ≠ .pop .C)
    (h₂ : i ≠ .popu .C) : t.rd = s.rd := by
  cases h with
  | answers => exact State.respond_rd ..
  | inits | flushes => cases hc
  | pops => exact absurd rfl h₁
  | popsUnchecked | popsEmpty => exact absurd rfl h₂
  | pushes | pushesUnchecked | peeksEmpty => rfl

/-- Only INIT, FLUSH, PUSH and PUSHU move `wr` (10_state.md R23). -/
theorem Does.wr_eq {i : Instr} {s t : State} (h : Does s i t) (hc : isCtl i = false) (h₁ : i ≠ .push .P)
    (h₂ : i ≠ .pushu .P) : t.wr = s.wr := by
  cases h with
  | answers => exact State.respond_wr ..
  | inits | flushes => cases hc
  | pushes => exact absurd rfl h₁
  | pushesUnchecked => exact absurd rfl h₂
  | pops | popsUnchecked | popsEmpty | peeksEmpty => rfl

/-! ### The obligations -/

/-- Settles O27: an 8-bit power of two is one of eight values, and each of them is at most 128. -/
theorem validCapacitiesArePowersOfTwo : Obligations.ValidCapacitiesArePowersOfTwo := by
  refine ⟨fun p c => by rw [validCap_iff, exists_and_right], fun p c hp => ?_⟩
  rw [validCap, Bool.and_eq_true, decide_eq_true_iff, hp, isPow2_iff_mem, and_iff_left_iff_imp]
  exact (by decide : ∀ c ∈ [1#8, 2#8, 4#8, 8#8, 16#8, 32#8, 64#8, 128#8], c.toNat ≤ 128) c

/-- Settles O28: the ladder stops INIT at CONFLICT alone, and its own rule leaves equal indices under a capacity. -/
theorem initRecordsCapacityAndZeroesIndices : Obligations.InitRecordsCapacityAndZeroesIndices := by
  intro x c s
  have hconf : inConflict (.init x c) s = s.otherActive x := inConflict_of_ctl rfl rfl
  refine ⟨?_, fun ha => guarded_conflict rfl (hconf.trans ha), fun ha hv => ?_, fun ha hv => ⟨?_, ?_⟩⟩
  · rw [← encode_init x]
    exact decodeOfEncodeIsTheCommand (.init x c) rfl
  · rw [exec_init, guarded_pass rfl (hconf.trans ha) nofun, if_neg (by simp [hv])]
  · rw [exec_init, guarded_pass rfl (hconf.trans ha) nofun, if_pos hv]
    rfl
  · rw [State.statusOutputs_congr (State.respond_block ..)]
    exact State.statusOutputs_of_wr_eq_rd rfl (validCap_ne_zero hv)

/-- Settles O29: a failing INIT only answers, so it keeps the block, and with it the slots and the outputs. -/
theorem failingInitChangesNothing : Obligations.FailingInitChangesNothing := by
  intro x c s t h hs
  obtain ⟨st, -, rfl⟩ := (exec_does h).eq_respond_of_not_ok hs
  exact ⟨State.respond_block .., fun k => State.respond_readSlot .., State.statusOutputs_congr (State.respond_block ..)⟩

/-- Settles O44: each field's own lemma names the commands that move it, and a status other than OK only answers. -/
theorem controlAndQueryFrame : Obligations.ControlAndQueryFrame := by
  intro i s t hn h
  have hd := exec_does h
  have hP := hn .P
  have hC := hn .C
  simp only [List.mem_cons, List.not_mem_nil, or_false, not_or] at hP hC
  obtain ⟨hpush, hpushu, -⟩ := hP
  obtain ⟨-, -, hpop, hpopu, hpeek⟩ := hC
  obtain ⟨hparams, hviol, hin, hst, hdata⟩ := hd.frame
  refine ⟨State.readSlot_congr hparams (hd.mem_eq_of_not_push hpush hpushu), hparams, hviol, hin, hd.draws_eq hpopu hpeek,
    hst, hdata, fun hc => ⟨hd.cap_eq ?_, hd.rd_eq hc hpop hpopu, hd.wr_eq hc hpush hpushu⟩, ?_, fun hs => ?_⟩
  · rintro x c rfl; cases hc
  · rintro x rfl; exact hd.cap_eq nofun
  · obtain ⟨st, -, rfl⟩ := hd.eq_respond_of_not_ok hs
    exact State.respond_block ..

end Sys2Proof.Machine
end

