-- ==== Sys2Proof/Proofs/Queries.lean ====
section
/-! PROOFS. The query commands of spec 42_queries.md: the one ladder that USED, FREE, EMPTY and FULL share, a query
beside a command of the other port, and a query repeated. -/

namespace Sys2Proof

/-! ### The words of the queries (30_encoding.md R74) -/

theorem decode_used (x : Port) : decode x 0x3000#16 = .command (.used x) := by cases x <;> decide
theorem decode_free (x : Port) : decode x 0x4000#16 = .command (.free x) := by cases x <;> decide
theorem decode_empty (x : Port) : decode x 0x5000#16 = .command (.empty x) := by cases x <;> decide
theorem decode_full (x : Port) : decode x 0x6000#16 = .command (.full x) := by cases x <;> decide

end Sys2Proof

namespace Sys2Proof.Machine

/-! ### The ladder of a query -/

/-- The queries are legal on both ports and need a capacity, and they are neither NOP nor a control command. -/
theorem query_class {i : Instr} {s : State} {d : Elem} (h : queryValue s i = some d) :
    i.wf = true ∧ isCtl i = false ∧ isActive i = true ∧ needsInit i = true := by
  cases i with
  | used | free | empty | full => exact ⟨rfl, rfl, rfl, rfl⟩
  | _ => cases h

/-- The own rule of a query answers OK with its value, and does nothing else. -/
theorem exec_query {i : Instr} {s : State} {d : Elem} (h : queryValue s i = some d) :
    exec i s = guarded i s (.next (s.respond i.port .ok d)) := by
  cases i with
  | used x => cases h; exact exec_used x s
  | free x => cases h; exact exec_free x s
  | empty x => cases h; exact exec_empty x s
  | full x => cases h; exact exec_full x s
  | _ => cases h

/-- With a capacity, and neither INIT nor FLUSH on the other port, a query answers its value. -/
theorem exec_query_ok {i : Instr} {s : State} {d : Elem} (h : queryValue s i = some d) (hn : s.otherCtl i.port = false)
    (hi : s.Initialized) : exec i s = .next (s.respond i.port .ok d) := by
  obtain ⟨hw, hc, ha, -⟩ := query_class h
  rw [exec_query h, guarded_pass hw (by rw [inConflict_of_data hc ha, hn]) fun _ => hi]

/-- Every state meets one of the three rungs of a query's ladder (60_exceptions.md R154). -/
theorem query_ladder {i : Instr} {s : State} {d : Elem} (h : queryValue s i = some d) :
    (s.otherCtl i.port = true → exec i s = .next (s.respond i.port .conflict 0#32)) ∧
    (s.otherCtl i.port = false → s.cap = 0#8 → exec i s = .next (s.respond i.port .uninit 0#32)) ∧
    (s.otherCtl i.port = false → s.cap ≠ 0#8 → exec i s = .next (s.respond i.port .ok d)) := by
  obtain ⟨hw, hc, ha, hneed⟩ := query_class h
  have hconf : inConflict i s = s.otherCtl i.port := inConflict_of_data hc ha
  refine ⟨fun hn => ?_, fun hn h0 => ?_, exec_query_ok h⟩
  · rw [exec_query h, guarded_conflict hw (hconf.trans hn)]
  · rw [exec_query h, guarded_uninit hw (hconf.trans hn) h0 hneed]

/-- A comparison as a query's data: 1 where the two sides agree, else 0. -/
theorem zextBool_beq (a b : Byte) : zextBool (a == b) = if a = b then 1#32 else 0#32 := by
  split
  · next h => rw [beq_iff_eq.mpr h]; rfl
  · next h => rw [beq_eq_false_iff_ne.mpr h]; rfl

/-! ### A query in a cycle -/

theorem otherCtl_eq_isCtl {x : Port} {j : Instr} {s : State} (hj : s.decoded x.other = .command j) :
    s.otherCtl x = isCtl j := by rw [State.otherCtl, hj]

/-- A query's side of a cycle reads the start-of-cycle state, whatever command but INIT and FLUSH stands beside it. -/
theorem runPort_query {x : Port} {i j : Instr} {s : State} {d : Elem} (hi : s.decoded x = .command i)
    (hj : s.decoded x.other = .command j) (hc : isCtl j = false) (h0 : s.Initialized) (hq : queryValue s i = some d) :
    runPort x s = .next (s.respond x .ok d) := by
  obtain rfl := decode_port hi
  rw [runPort_command hi, exec_query_ok hq ((otherCtl_eq_isCtl hj).trans hc) h0]

/-- The value of a query depends on the block alone. -/
theorem queryValue_congr {s t : State} (h : t.block = s.block) (i : Instr) : queryValue t i = queryValue s i := by
  obtain ⟨hused, hfree, hempty, hfull, -⟩ := State.flags_congr h
  cases i with
  | used x => rw [queryValue, queryValue, hused]
  | free x => rw [queryValue, queryValue, hfree]
  | empty x => rw [queryValue, queryValue, hempty]
  | full x => rw [queryValue, queryValue, hfull]
  | _ => rfl

/-! ### A query repeated -/

/-- The four response signals of a cycle whose one command answers OK with `d` on port `x`, beside NOP. -/
def aloneResponse (x : Port) (d : Elem) : CycleOut :=
  match x with
  | .P => { pStatus := 0#3, pRdata := d, cStatus := 0#3, cRdata := 0#32 }
  | .C => { pStatus := 0#3, pRdata := 0#32, cStatus := 0#3, cRdata := d }

theorem response_of_aloneResponse {x : Port} {d : Elem} {t : State} (h : t.response = aloneResponse x d) :
    t.statusOn x = 0#3 ∧ t.rdataOn x = d := by
  cases x with
  | P => exact ⟨congrArg CycleOut.pStatus h, congrArg CycleOut.pRdata h⟩
  | C => exact ⟨congrArg CycleOut.cStatus h, congrArg CycleOut.cRdata h⟩

/-- A query with a cycle of its own answers its value and assigns no register and no slot. -/
theorem step_query_alone {x : Port} {i : Instr} {s : State} {d : Elem} (h : PresentsAlone x i s.pins)
    (h0 : s.Initialized) (hq : queryValue s i = some d) :
    ∃ t, step s = .next t ∧ t.block = s.block ∧ t.response = aloneResponse x d := by
  obtain ⟨hr, hd, hz⟩ := h
  have hother : s.decoded x.other = .command (.nop x.other) := by rw [State.decoded, hz, decode_nop]
  have hrun := runPort_query hd hother rfl h0 hq
  have hnop : runPort x.other s = .next (s.respond x.other .ok 0#32) := runPort_nop hz
  cases x with
  | P => exact ⟨_, step_ports hr hrun hnop, joinPorts_block_left rfl, rfl⟩
  | C => exact ⟨_, step_ports hr hnop hrun, joinPorts_block_left rfl, rfl⟩

/-- A query in two cycles of its own: the second reads the block that the first one kept. -/
theorem run_query_twice {x : Port} {i : Instr} {s : State} {a : CycleIn} {d : Elem} (h : PresentsAlone x i a)
    (h0 : s.Initialized) (hq : queryValue s i = some d) :
    ∃ t, run [a, a] s = some ([aloneResponse x d, aloneResponse x d], t) ∧ t.block = s.block ∧
      t.response = aloneResponse x d := by
  obtain ⟨t, ht, htb, htr⟩ := step_query_alone (s := { s with inputs := [a] }) h h0 hq
  have ht0 : t.Initialized := by rwa [State.Initialized, (State.block_eq_iff.mp htb).1]
  have htq : queryValue t i = some d := (queryValue_congr htb i).trans hq
  obtain ⟨u, hu, hub, hur⟩ := step_query_alone (s := { t with inputs := [a] }) h ht0 htq
  refine ⟨u, ?_, hub.trans htb, hur⟩
  rw [run_two ht hu, htr, hur]

/-- The four query words name a query on either port. -/
theorem query_of_word (x : Port) (s : State) {w : Cmd} (hw : w ∈ [0x3000#16, 0x4000#16, 0x5000#16, 0x6000#16]) :
    ∃ i d, decode x w = .command i ∧ queryValue s i = some d := by
  simp only [List.mem_cons, List.not_mem_nil, or_false] at hw
  obtain rfl | rfl | rfl | rfl := hw
  · exact ⟨.used x, _, decode_used x, rfl⟩
  · exact ⟨.free x, _, decode_free x, rfl⟩
  · exact ⟨.empty x, _, decode_empty x, rfl⟩
  · exact ⟨.full x, _, decode_full x, rfl⟩

theorem presentsAlone_aloneOn {x : Port} {w : Cmd} {i : Instr} (h : decode x w = .command i) :
    PresentsAlone x i (aloneOn x w) := by
  cases x with
  | P => exact ⟨rfl, h, rfl⟩
  | C => exact ⟨rfl, h, rfl⟩

/-! ### The obligations -/

/-- Settles O15: each port's side runs on the start-of-cycle state, and the cycle joins its response unchanged. -/
theorem queriesSeeTheStartOfTheCycle : Obligations.QueriesSeeTheStartOfTheCycle := by
  intro s t iP iC d h0 hr hP hC ht
  obtain ⟨hr', -⟩ | ⟨-, p, c, hp, hc, rfl⟩ := step_next ht
  · rw [hr] at hr'; cases hr'
  · refine ⟨fun hq hctl => ?_, fun hq hctl => ?_⟩
    · rw [runPort_query (x := .P) hP hC hctl h0 hq] at hp
      cases hp
      exact ⟨rfl, rfl⟩
    · rw [runPort_query (x := .C) hC hP hctl h0 hq] at hc
      cases hc
      exact ⟨rfl, rfl⟩

/-- Settles O36: a query keeps the block, and its value depends on the block alone. -/
theorem queriesRepeatTheirAnswer : Obligations.QueriesRepeatTheirAnswer := by
  intro s x w h0 hw
  obtain ⟨i, d, hi, hq⟩ := query_of_word x s hw
  obtain ⟨t, hrun, hblock, hresp⟩ := run_query_twice (presentsAlone_aloneOn hi) h0 hq
  obtain ⟨hst, hdata⟩ := response_of_aloneResponse hresp
  exact ⟨_, t, hrun, hblock, hst, i, d, hi, hq, hdata⟩

/-- Settles O32: the ladder of a query, at the used count. -/
theorem usedReturnsTheUsedCount : Obligations.UsedReturnsTheUsedCount :=
  fun x _ => ⟨decode_used x, query_ladder (i := .used x) rfl⟩

/-- Settles O33: the ladder of a query, at the free count. -/
theorem freeReturnsTheFreeCount : Obligations.FreeReturnsTheFreeCount :=
  fun x _ => ⟨decode_free x, query_ladder (i := .free x) rfl⟩

/-- Settles O34: the ladder of a query, at the comparison of the indices. -/
theorem emptyReturnsWhetherTheIndicesAgree : Obligations.EmptyReturnsWhetherTheIndicesAgree :=
  fun x s => ⟨decode_empty x, query_ladder (i := .empty x) (congrArg some (zextBool_beq s.wr s.rd))⟩

/-- Settles O35: the ladder of a query, at the comparison of the used count with the capacity. -/
theorem fullReturnsWhetherUsedIsTheCapacity : Obligations.FullReturnsWhetherUsedIsTheCapacity :=
  fun x s => ⟨decode_full x, query_ladder (i := .full x) (congrArg some (zextBool_beq s.usedCount s.cap))⟩

end Sys2Proof.Machine
end

