-- ==== Sys2Proof/Proofs/Push.lean ====
section
/-! PROOFS. Push of spec 43_push.md: the ladder of PUSH and PUSHU, the occupancy and the slots after a push, the frame, and
an element pushed in one cycle and popped in the next. -/

namespace Sys2Proof

/-! ### The words of the pushes (30_encoding.md R74, R75) -/

theorem decode_push : decode .P 0x8000#16 = .command (.push .P) := by decide
theorem decode_push_C : decode .C 0x8000#16 = .illegal .wrongPort := by decide
theorem decode_pushu : decode .P 0x9000#16 = .command (.pushu .P) := by decide
theorem decode_pushu_C : decode .C 0x9000#16 = .illegal .wrongPort := by decide
theorem decode_pop : decode .C 0xA000#16 = .command (.pop .C) := by decide

end Sys2Proof

namespace Sys2Proof.Machine

/-! ### The ladder of a command on the data path -/

/-- The rungs above the own rule of a command that is neither NOP nor a control command (60_exceptions.md R154). -/
theorem data_ladder {i : Instr} {s : State} {go : Host.Outcome State Fault Refusal} (he : exec i s = guarded i s go)
    (hw : i.wf = true) (hc : isCtl i = false) (ha : isActive i = true) (hneed : needsInit i = true) :
    (s.otherCtl i.port = true → exec i s = .next (s.respond i.port .conflict 0#32)) ∧
    (s.otherCtl i.port = false → s.cap = 0#8 → exec i s = .next (s.respond i.port .uninit 0#32)) ∧
    (s.otherCtl i.port = false → s.cap ≠ 0#8 → exec i s = go) := by
  have hconf : inConflict i s = s.otherCtl i.port := inConflict_of_data hc ha
  rw [he]
  exact ⟨fun hn => guarded_conflict hw (hconf.trans hn), fun hn h0 => guarded_uninit hw (hconf.trans hn) h0 hneed,
    fun hn h0 => guarded_pass hw (hconf.trans hn) fun _ => h0⟩

/-- A guarded command that answers reached its own rule, or answered an error and did nothing else (R150). -/
theorem guarded_next_or_error {i : Instr} {s t : State} {go : Host.Outcome State Fault Refusal}
    (h : guarded i s go = .next t) : (∃ st : Status, st ≠ .ok ∧ t = s.respond i.port st 0#32) ∨ go = .next t := by
  obtain ⟨-, rfl⟩ | ⟨-, -, rfl⟩ | ⟨-, -, -, -, rfl⟩ | ⟨-, -, -, hgo⟩ := guarded_next h
  · exact .inl ⟨.illegal, nofun, rfl⟩
  · exact .inl ⟨.conflict, nofun, rfl⟩
  · exact .inl ⟨.uninit, nofun, rfl⟩
  · exact .inr hgo

/-- Everything PUSH and PUSHU can do: an error's answer, or the store (43_push.md R120, R122). -/
theorem exec_push_next {x : Port} {i : Instr} {s t : State} (hmem : i ∈ [.push x, .pushu x])
    (h : exec i s = .next t) : (∃ st : Status, st ≠ .ok ∧ t = s.respond x st 0#32) ∨ t = s.pushed x := by
  have stored (hgo : withSlot s s.pushSlot (.next (s.pushed x)) = .next t) : t = s.pushed x := by
    obtain ⟨-, hp⟩ := withSlot_next hgo
    cases hp
    rfl
  simp only [List.mem_cons, List.not_mem_nil, or_false] at hmem
  obtain rfl | rfl := hmem
  · rw [exec_push] at h
    obtain herr | hgo := guarded_next_or_error h
    · exact .inl herr
    · split at hgo
      · cases hgo
        exact .inl ⟨.overflow, nofun, rfl⟩
      · exact .inr (stored hgo)
  · rw [exec_pushu] at h
    exact (guarded_next_or_error h).imp_right stored

/-! ### PUSH and PUSHU that store -/

theorem exec_push_stores {s : State} (hn : s.otherCtl .P = false) (hv : validCap s.params s.cap = true)
    (hf : s.isFull = false) : exec (.push .P) s = .next (s.pushed .P) := by
  obtain ⟨-, -, own⟩ := data_ladder (exec_push .P s) rfl rfl rfl rfl
  rw [own hn (validCap_ne_zero hv), hf]
  exact withSlot_slotOf hv

theorem exec_pushu_stores {s : State} (hn : s.otherCtl .P = false) (hv : validCap s.params s.cap = true) :
    exec (.pushu .P) s = .next (s.pushed .P) := by
  obtain ⟨-, -, own⟩ := data_ladder (exec_pushu .P s) rfl rfl rfl rfl
  rw [own hn (validCap_ne_zero hv)]
  exact withSlot_slotOf hv

/-- Every slot but the one a push writes keeps its element. -/
theorem readSlot_pushed_other (s : State) (x : Port) {k : Nat} (hk : k ≠ s.pushSlot.toNat) :
    (s.pushed x).readSlot k = s.readSlot k :=
  (State.readSlot_congr (s := s.writeSlot s.pushSlot.toNat s.pushOperand) (State.pushed_params s x)
    (State.pushed_mem s x) k).trans (State.readSlot_writeSlot_other s _ hk)

/-! ### Occupancy around a push -/

theorem used_lt_cap_of_not_full {s : State} (hu : s.Uncorrupted) (hf : s.isFull = false) :
    s.usedCount.toNat < s.cap.toNat := by
  refine lt_of_le_of_ne hu fun heq => ?_
  rw [(State.isFull_iff_toNat s).mpr heq] at hf
  cases hf

/-- Where a push finds room, one more is used and one fewer free; the buffer is not empty, and full where that was the
last free slot. -/
theorem pushed_outputs {s : State} (x : Port) (hs : s.Inv) (hi : s.Initialized) (hu : s.Uncorrupted)
    (hf : s.isFull = false) :
    (s.pushed x).usedCount.toNat = s.usedCount.toNat + 1 ∧ (s.pushed x).freeCount.toNat + 1 = s.freeCount.toNat ∧
      (s.pushed x).isEmpty = false ∧ ((s.pushed x).isFull = true ↔ s.usedCount.toNat + 1 = s.cap.toNat) := by
  have hroom := used_lt_cap_of_not_full hu hf
  have hused := usedCount_pushed x hs hi hroom
  refine ⟨hused, ?_, ?_, ?_⟩
  · rw [freeCount_toNat, freeCount_toNat, hused, State.pushed_cap, if_pos (Nat.succ_le_of_lt hroom), if_pos hu]
    omega
  · have hi' : (s.pushed x).Initialized := by rwa [State.Initialized, State.pushed_cap]
    rw [← Bool.not_eq_true, State.isEmpty_iff_used (hs.pushed x hi) hi', hused]
    exact Nat.succ_ne_zero _
  · rw [State.isFull_iff_toNat, hused, State.pushed_cap]

/-- On a full buffer the slot a push writes holds the oldest element: `N` places after it stands the same slot. -/
theorem pushSlot_eq_popSlot_of_full {s : State} (hs : s.Inv) (hi : s.Initialized) (hf : s.isFull = true) :
    s.pushSlot = s.popSlot := by
  have hv := hs.valid hi
  apply BitVec.eq_of_toNat_eq
  rw [← nthSlot_used hs hi, ← nthSlot_zero, nthSlot_eq hv, nthSlot_eq hv, (State.isFull_iff_toNat s).mp hf,
    Nat.add_mod_right, Nat.add_zero]

/-! ### A push, and the pop of its element -/

theorem isEmpty_iff_queue {s : State} (hs : s.Inv) (hi : s.Initialized) : s.isEmpty = true ↔ s.queue = [] := by
  rw [State.isEmpty_iff_used hs hi, ← length_queue, List.length_eq_zero_iff]

/-- Beside the PUSH into an empty buffer a POP still finds it empty, and the cycle leaves the one element (R185). -/
theorem step_push_beside_pop {s : State} (hs : s.Inv) (hi : s.Initialized) (he : s.isEmpty = true)
    (hr : s.pins.rst = false) (hpair : PresentsPair s (.push .P) (.pop .C)) :
    ∃ t, step s = .next t ∧ t.pStatus = 0#3 ∧ t.cStatus = 3#3 ∧ t.Initialized ∧ t.queue = [s.pushOperand] := by
  have heq : s.wr = s.rd := (State.isEmpty_iff s).mp he
  have hstores : Stores (.push .P) s := .inr ⟨rfl, isFull_of_empty hi heq⟩
  have htakes : ¬ Takes (.pop .C) s := fun ⟨_, hne⟩ => by rw [he] at hne; cases hne
  refine ⟨_, hpair.step_eq hs hi hr, ?_, ?_, ?_, ?_⟩
  · exact congrArg State.pStatus hstores.ownRule_eq
  · exact congrArg State.cStatus (ownRule_pop_empty he)
  · have hpush := ownRule_cap_of_not_ctl (i := .push .P) s rfl
    have hpop := ownRule_cap_of_not_ctl (i := .pop .C) s rfl
    simpa [closeCycle, hpush, hpop] using hi
  · rw [queue_closeCycle hs hi (.of_wr_eq_rd heq) hpair rfl rfl nofun nofun, if_neg htakes, if_pos hstores,
      (isEmpty_iff_queue hs hi).mp he]
    rfl

/-- A POP with a cycle of its own answers the oldest element and takes it off the queue (R130). -/
theorem step_pop_alone {s : State} {d : Elem} {q : List Elem} (hs : s.Inv) (hi : s.Initialized)
    (h : PresentsAlone .C (.pop .C) s.pins) (hq : s.queue = d :: q) :
    ∃ t, step s = .next t ∧ t.cStatus = 0#3 ∧ t.cRdata = d ∧ t.Initialized ∧ t.queue = q := by
  have he : s.isEmpty = false := by
    rw [← Bool.not_eq_true, isEmpty_iff_queue hs hi, hq]
    exact List.cons_ne_nil d q
  obtain ⟨hok, hdata⟩ := ownRule_returns_oldest (i := .pop .C) hs hi (by simp) (congrArg List.head? hq)
  obtain ⟨t, ht, ⟨hblock, hst, hrd⟩, hparams, -⟩ := step_alone hs hi h
  rw [Takes.ownRule_eq ⟨by simp, he⟩] at hblock
  refine ⟨t, ht, hst.trans hok, hrd.trans hdata, ?_, ?_⟩
  · rw [State.Initialized, (State.block_eq_iff.mp hblock).1]
    exact hi
  · rw [queue_congr (hparams.trans (State.popped_params s .C).symm) hblock, queue_popped .C hs hi he, hq]
    rfl

/-! ### The obligations -/

/-- Settles O16: the first cycle leaves a queue of the pushed element alone, which the second cycle's POP takes. -/
theorem pushIsVisibleInTheNextCycle : Obligations.PushIsVisibleInTheNextCycle := by
  intro s v hs hi he
  obtain ⟨t, ht, hp, hc, hti, hqueue⟩ :=
    step_push_beside_pop (s := { s with inputs := [{ pushCycle v with cCmd := 0xA000#16 }] }) hs hi he rfl
      ⟨decode_push, decode_pop, rfl⟩
  have htinv : t.Inv := step_inv (s := { s with inputs := [{ pushCycle v with cCmd := 0xA000#16 }] }) hs ht
  obtain ⟨u, hu, hok, hdata, hui, hempty⟩ :=
    step_pop_alone (s := { t with inputs := [popCycle] }) htinv hti ⟨rfl, decode_pop, rfl⟩ hqueue
  have huinv : u.Inv := step_inv (s := { t with inputs := [popCycle] }) htinv hu
  exact ⟨t.response, u.response, u, run_two ht hu, hp, hc, hok, hdata, (isEmpty_iff_queue huinv hui).mpr hempty⟩

/-- Settles O37: PUSH's ladder, its store, and the outputs after it. -/
theorem pushStoresTheElementAndAdvancesWr : Obligations.PushStoresTheElementAndAdvancesWr := by
  intro s
  obtain ⟨conflict, uninit, own⟩ := data_ladder (exec_push .P s) rfl rfl rfl rfl
  refine ⟨decode_push, decode_push_C, exec_illegal rfl s, conflict, uninit, fun hn h0 hfull => ?_,
    fun hn hv hroom => ?_, fun hn hs hi hu hf => ?_⟩
  · rw [own hn h0, if_pos ((State.isFull_iff s).mpr hfull)]
  · exact exec_push_stores hn hv (by rw [← Bool.not_eq_true, State.isFull_iff]; exact hroom)
  · exact ⟨s.pushed .P, exec_push_stores hn (hs.valid hi) hf, pushed_outputs .P hs hi hu hf⟩

/-- Settles O38: PUSHU's ladder and its store; on a full buffer both indices name one slot. -/
theorem pushuStoresTheElementUnchecked : Obligations.PushuStoresTheElementUnchecked := by
  intro s
  obtain ⟨conflict, uninit, -⟩ := data_ladder (exec_pushu .P s) rfl rfl rfl rfl
  refine ⟨decode_pushu, decode_pushu_C, exec_illegal rfl s, conflict, uninit, exec_pushu_stores, fun hn hs hi => ?_⟩
  have hv := hs.valid hi
  refine ⟨s.pushed .P, exec_pushu_stores hn hv, usedCount_pushed_mod .P hv, fun hf => ?_⟩
  have hslot := pushSlot_eq_popSlot_of_full hs hi hf
  exact ⟨hslot, hslot ▸ readSlot_pushed s .P⟩

/-- Settles O39: PUSH and PUSHU answer an error and nothing else, or store at `wr`'s slot. -/
theorem pushFrame : Obligations.PushFrame := by
  intro x i s t hmem h
  obtain ⟨st, hst, rfl⟩ | rfl := exec_push_next hmem h
  · simp [hst]
  · have hok : (s.pushed x).statusOn x = 0#3 := State.statusOn_respond ..
    exact ⟨State.pushed_cap s x, State.pushed_rd s x, State.pushed_params s x, State.respond_violated ..,
      State.pushed_inputs s x, State.pushed_draws s x, State.statusOn_respond_other .., State.rdataOn_respond_other ..,
      fun _ => readSlot_pushed_other s x, fun _ => ⟨readSlot_pushed s x, State.pushed_wr s x⟩, fun hn => absurd hok hn⟩

end Sys2Proof.Machine
end

