-- ==== Sys2Proof/Proofs/PopPeek.lean ====
section
/-! PROOFS. Pop and peek of spec 44_pop_peek.md: the ladder of POP, POPU and PEEK, the occupancy after a pop, the frame,
and a PEEK followed by a command that reads the same element. -/

namespace Sys2Proof

/-! ### The words of the pops and of PEEK (30_encoding.md R74, R75) -/

theorem decode_pop_P : decode .P 0xA000#16 = .illegal .wrongPort := by decide
theorem decode_popu : decode .C 0xB000#16 = .command (.popu .C) := by decide
theorem decode_popu_P : decode .P 0xB000#16 = .illegal .wrongPort := by decide
theorem decode_peek : decode .C 0xC000#16 = .command (.peek .C) := by decide
theorem decode_peek_P : decode .P 0xC000#16 = .illegal .wrongPort := by decide

end Sys2Proof

namespace Sys2Proof.Machine

/-! ### The ladder of a command that reads the oldest element -/

/-- The rungs of POP, POPU and PEEK: the errors, the rule on an empty buffer, and the rule on the slot of `rd`. -/
theorem read_ladder {i : Instr} {s : State} {onEmpty onSlot : Host.Outcome State Fault Refusal}
    (hmem : i ∈ [.pop .C, .popu .C, .peek .C])
    (h : exec i s = guarded i s (if s.isEmpty then onEmpty else withSlot s s.popSlot onSlot)) :
    (s.otherCtl .C = true → exec i s = .next (s.respond .C .conflict 0#32)) ∧
    (s.otherCtl .C = false → s.cap = 0#8 → exec i s = .next (s.respond .C .uninit 0#32)) ∧
    (s.otherCtl .C = false → s.cap ≠ 0#8 → s.wr = s.rd → exec i s = onEmpty) ∧
    (s.otherCtl .C = false → validCap s.params s.cap = true → s.wr ≠ s.rd → exec i s = onSlot) := by
  obtain ⟨hport, hw, hc, ha, hneed⟩ := (by decide : ∀ i ∈ [Instr.pop .C, .popu .C, .peek .C],
    i.port = .C ∧ i.wf = true ∧ isCtl i = false ∧ isActive i = true ∧ needsInit i = true) i hmem
  obtain ⟨conflict, uninit, own⟩ := data_ladder h hw hc ha hneed
  rw [hport] at conflict uninit own
  refine ⟨conflict, uninit, fun hn h0 he => ?_, fun hn hv hne => ?_⟩
  · rw [own hn h0, if_pos ((State.isEmpty_iff s).mpr he)]
  · rw [own hn (validCap_ne_zero hv), if_neg ((State.isEmpty_iff s).not.mpr hne)]
    exact withSlot_slotOf hv

/-- POP and POPU that answer an error do nothing else, and otherwise they advance `rd` (44_pop_peek.md R130, R132). -/
theorem exec_pop_next {x : Port} {i : Instr} {s t : State} (hmem : i ∈ [.pop x, .popu x]) (h : exec i s = .next t) :
    (∃ st : Status, st ≠ .ok ∧ t = s.respond x st 0#32) ∨ t.rd = nextIndex s.cap s.rd := by
  have taken (hgo : withSlot s s.popSlot (.next (s.popped x)) = .next t) : t.rd = nextIndex s.cap s.rd := by
    obtain ⟨-, hp⟩ := withSlot_next hgo
    cases hp
    exact State.popped_rd s x
  simp only [List.mem_cons, List.not_mem_nil, or_false] at hmem
  obtain rfl | rfl := hmem
  · rw [exec_pop] at h
    obtain herr | hgo := guarded_next_or_error h
    · exact .inl herr
    · split at hgo
      · cases hgo
        exact .inl ⟨.underflow, nofun, rfl⟩
      · exact .inr (taken hgo)
  · rw [exec_popu] at h
    refine (guarded_next_or_error h).imp_right fun hgo => ?_
    split at hgo
    · cases hgo
      exact State.respond_rd ..
    · exact taken hgo

/-! ### Occupancy after a pop -/

theorem isEmpty_eq_false_iff (s : State) : s.isEmpty = false ↔ s.wr ≠ s.rd := by
  rw [← Bool.not_eq_true, State.isEmpty_iff]

/-- Where a pop finds an element, one fewer is used and one more free; the buffer is not full, and empty where that was
the last element. -/
theorem popped_outputs {s : State} (x : Port) (hs : s.Inv) (hi : s.Initialized) (hu : s.Uncorrupted)
    (he : s.isEmpty = false) :
    (s.popped x).usedCount.toNat + 1 = s.usedCount.toNat ∧ (s.popped x).freeCount.toNat = s.freeCount.toNat + 1 ∧
      (s.popped x).isFull = false ∧ ((s.popped x).isEmpty = true ↔ s.usedCount.toNat = 1) := by
  have hused : (s.popped x).usedCount.toNat + 1 = s.usedCount.toNat := by
    rw [usedCount_popped x hs hi he]
    exact Nat.sub_add_cancel (used_pos_of_not_empty hs hi he)
  refine ⟨hused, ?_, isFull_popped x hs hi hu he, ?_⟩
  · rw [State.Uncorrupted] at hu
    rw [freeCount_toNat, freeCount_toNat, State.popped_cap, if_pos (by omega), if_pos hu]
    omega
  · have hi' : (s.popped x).Initialized := by rwa [State.Initialized, State.popped_cap]
    rw [State.isEmpty_iff_used (hs.popped x hi) hi']
    omega

/-- At any occupancy POPU lowers the used count by one modulo `2N`. -/
theorem usedCount_popu_mod {s : State} (hs : s.Inv) (hi : s.Initialized) :
    (ownRule (.popu .C) s).usedCount.toNat = (s.usedCount.toNat + (2 * s.cap.toNat - 1)) % (2 * s.cap.toNat) := by
  have hv := hs.valid hi
  have hpos := cap_pos hv
  by_cases he : s.isEmpty = true
  · rw [usedCount_popu_empty hs hi he, (State.isEmpty_iff_used hs hi).mp he, Nat.zero_add,
      Nat.mod_eq_of_lt (by omega)]
  · rw [Bool.not_eq_true] at he
    have hlt := usedCount_lt hv
    have hone := used_pos_of_not_empty hs hi he
    rw [Takes.ownRule_eq ⟨by simp, he⟩, usedCount_popped .C hs hi he,
      show s.usedCount.toNat + (2 * s.cap.toNat - 1) = s.usedCount.toNat - 1 + 2 * s.cap.toNat by omega,
      Nat.add_mod_right, Nat.mod_eq_of_lt (by omega)]

/-! ### PEEK, and the command that reads after it -/

/-- PEEK assigns no register and no slot (R134, R135). -/
theorem exec_peek_block {s t : State} (h : exec (.peek .C) s = .next t) : t.block = s.block := by
  have hd := exec_does h
  exact State.block_eq_iff.mpr ⟨hd.cap_eq nofun, hd.rd_eq rfl nofun nofun, hd.wr_eq rfl nofun nofun,
    hd.mem_eq_of_not_push nofun nofun⟩

/-- A non-empty buffer has an oldest element. -/
theorem exists_head_queue {s : State} (hs : s.Inv) (hi : s.Initialized) (he : s.isEmpty = false) :
    ∃ d, s.queue.head? = some d := by
  rw [← Bool.not_eq_true, isEmpty_iff_queue hs hi] at he
  exact Option.ne_none_iff_exists'.mp (List.head?_eq_none_iff.not.mpr he)

/-- A PEEK beside a command that stores nothing, or stores within contract, answers the oldest element and keeps it the
oldest (R135). -/
theorem step_peek_keeps_head {s : State} {iP : Instr} {d : Elem} (hs : s.Inv) (hi : s.Initialized)
    (hr : s.pins.rst = false) (hpair : PresentsPair s iP (.peek .C)) (hctl : isCtl iP = false)
    (hstore : ¬ Stores iP s ∨ (s.Uncorrupted ∧ iP ≠ .pushu .P)) (hd : s.queue.head? = some d) :
    ∃ t, step s = .next t ∧ t.cStatus = 0#3 ∧ t.cRdata = d ∧ t.Initialized ∧ t.queue.head? = some d := by
  have ⟨hP, _, _⟩ := hpair
  obtain ⟨hok, hdata⟩ := ownRule_returns_oldest (i := .peek .C) hs hi (by decide) hd
  have hcap : (closeCycle s (ownRule iP s) (ownRule (.peek .C) s)).cap = s.cap := by
    simp [closeCycle, ownRule_cap_of_not_ctl s hctl, ownRule_cap_of_not_ctl (i := .peek .C) s rfl]
  refine ⟨_, hpair.step_eq hs hi hr, hok, hdata, by rwa [State.Initialized, hcap], ?_⟩
  have htakes : ¬ Takes (.peek .C) s := fun h => by simp [Takes] at h
  obtain hnone | ⟨hu, hchecked⟩ := hstore
  · have hpeek : (ownRule (.peek .C) s).block = s.block := ownRule_block_of_not_takes rfl rfl rfl nofun htakes
    have hother := ownRule_block_of_not_stores (decode_port hP) (decode_wf hP) hctl hnone
    have hqueue : (closeCycle s (ownRule iP s) (ownRule (.peek .C) s)).queue = s.queue :=
      queue_congr rfl ((joinPorts_block_left hpeek).trans hother)
    rw [hqueue, hd]
  · have hqueue := queue_closeCycle hs hi hu hpair hctl rfl (fun h => absurd h hchecked) nofun
    rw [hqueue, if_neg htakes, List.head?_append, hd]
    rfl

/-- A cycle of its own for a pop or peek, after a cycle that left an oldest element: it answers that element. -/
theorem run_then_read {s t : State} {a b : CycleIn} {i : Instr} {d : Elem} (hs : s.Inv)
    (ht : step { s with inputs := [a] } = .next t) (hi : t.Initialized) (hb : PresentsAlone .C i b)
    (hmem : i ∈ [.pop .C, .popu .C, .peek .C]) (hd : t.queue.head? = some d) :
    ∃ u, run [a, b] s = some ([t.response, u.response], u) ∧ u.cStatus = 0#3 ∧ u.cRdata = d := by
  have htinv : t.Inv := step_inv (s := { s with inputs := [a] }) hs ht
  obtain ⟨u, hu, ⟨-, hst, hrd⟩, -⟩ := step_alone (s := { t with inputs := [b] }) htinv hi hb
  obtain ⟨hok, hdata⟩ := ownRule_returns_oldest (s := { t with inputs := [b] }) htinv hi hmem hd
  exact ⟨u, run_two ht hu, hst.trans hok, hrd.trans hdata⟩

/-- A PEEK, and a pop or peek in the next cycle, return one element where the first cycle keeps it the oldest. -/
theorem run_peek_then_read {s : State} {a b : CycleIn} {iP i : Instr} (hs : s.Inv) (hi : s.Initialized)
    (he : s.isEmpty = false) (hr : a.rst = false) (hpair : PresentsPair { s with inputs := [a] } iP (.peek .C))
    (hctl : isCtl iP = false) (hstore : ¬ Stores iP s ∨ (s.Uncorrupted ∧ iP ≠ .pushu .P))
    (hb : PresentsAlone .C i b) (hmem : i ∈ [.pop .C, .popu .C, .peek .C]) :
    ∃ (o1 o2 : CycleOut) (t : State), run [a, b] s = some ([o1, o2], t) ∧
      o1.cStatus = 0#3 ∧ o2.cStatus = 0#3 ∧ o1.cRdata = o2.cRdata := by
  obtain ⟨d, hd⟩ := exists_head_queue hs hi he
  obtain ⟨t, ht, hst, hdata, hti, htd⟩ :=
    step_peek_keeps_head (s := { s with inputs := [a] }) hs hi hr hpair hctl hstore hd
  obtain ⟨u, hrun, hst', hdata'⟩ := run_then_read hs ht hti hb hmem htd
  exact ⟨t.response, u.response, u, hrun, hst, hst', hdata.trans hdata'.symm⟩

/-! ### PEEK on an empty buffer -/

/-- On an empty buffer a PEEK with a cycle of its own answers a draw, and counts it (R134; log 5). -/
theorem step_peek_empty {s : State} (hi : s.Initialized) (he : s.isEmpty = true)
    (h : PresentsAlone .C (.peek .C) s.pins) :
    ∃ t, step s = .next t ∧ t.block = s.block ∧ t.params = s.params ∧ t.draws = s.draws + 1 ∧
      t.cRdata = s.drawnElem := by
  obtain ⟨hr, hd, hz⟩ := h
  obtain ⟨-, -, onEmpty, -⟩ := read_ladder (i := .peek .C) (by decide) (exec_peek .C s)
  have hnop : s.decoded Port.C.other = .command (.nop .P) := (congrArg (decode .P) hz).trans (decode_nop .P)
  have hexec := onEmpty (otherCtl_eq_isCtl hnop) hi ((State.isEmpty_iff s).mp he)
  exact ⟨_, step_consumer_alone hr hd hz hexec, rfl, rfl, rfl, rfl⟩

/-- Two PEEKs of an empty buffer answer two draws of their own, and leave the block as it was. -/
theorem run_peek_twice_empty {s : State} {a : CycleIn} (hi : s.Initialized) (he : s.isEmpty = true)
    (h : PresentsAlone .C (.peek .C) a) :
    ∃ t u : State, run [a, a] s = some ([t.response, u.response], u) ∧
      t.cRdata = fit s.params.width (Config.freeElem s.draws) ∧
      u.cRdata = fit s.params.width (Config.freeElem (s.draws + 1)) ∧ u.block = s.block := by
  obtain ⟨t, ht, htb, htp, htd, htr⟩ := step_peek_empty (s := { s with inputs := [a] }) hi he h
  have hti : t.Initialized := by rwa [State.Initialized, (State.block_eq_iff.mp htb).1]
  obtain ⟨-, -, hte, -⟩ := State.flags_congr htb
  obtain ⟨u, hu, hub, -, -, hur⟩ := step_peek_empty (s := { t with inputs := [a] }) hti (hte.trans he) h
  refine ⟨t, u, run_two ht hu, htr, hur.trans ?_, hub.trans htb⟩
  rw [State.drawnElem, htp, htd]

/-! ### The words beside a PEEK -/

/-- NOP, the queries and PUSH, by their words on port P. -/
theorem producer_of_word {w : Cmd} (hw : w ∈ [0x0000#16, 0x3000#16, 0x4000#16, 0x5000#16, 0x6000#16, 0x8000#16]) :
    ∃ i, decode .P w = .command i ∧ isCtl i = false ∧ i ≠ .pushu .P := by
  simp only [List.mem_cons, List.not_mem_nil, or_false] at hw
  obtain rfl | rfl | rfl | rfl | rfl | rfl := hw
  · exact ⟨_, decode_nop .P, rfl, nofun⟩
  · exact ⟨_, decode_used .P, rfl, nofun⟩
  · exact ⟨_, decode_free .P, rfl, nofun⟩
  · exact ⟨_, decode_empty .P, rfl, nofun⟩
  · exact ⟨_, decode_full .P, rfl, nofun⟩
  · exact ⟨_, decode_push, rfl, nofun⟩

/-! ### The obligations -/

/-- Settles O40: POP's ladder, and the outputs after it took an element. -/
theorem popReturnsTheOldestElement : Obligations.PopReturnsTheOldestElement := by
  intro s
  obtain ⟨conflict, uninit, onEmpty, onSlot⟩ := read_ladder (by decide) (exec_pop .C s)
  refine ⟨decode_pop, decode_pop_P, exec_illegal rfl s, conflict, uninit, onEmpty, onSlot, fun hn hs hi hu he => ?_⟩
  exact ⟨s.popped .C, onSlot hn (hs.valid hi) ((isEmpty_eq_false_iff s).mp he), popped_outputs .C hs hi hu he⟩

/-- Settles O41: POPU's ladder, and the used count after it at any occupancy. -/
theorem popuAdvancesUnchecked : Obligations.PopuAdvancesUnchecked := by
  intro s
  obtain ⟨conflict, uninit, onEmpty, onSlot⟩ := read_ladder (by decide) (exec_popu .C s)
  refine ⟨decode_popu, decode_popu_P, exec_illegal rfl s, conflict, uninit, onSlot, onEmpty, fun hn hs hi => ?_⟩
  exact ⟨ownRule (.popu .C) s, exec_unchecked hs hi (by decide) hn, usedCount_popu_mod hs hi⟩

/-- Settles O42: PEEK's ladder; beside NOP it keeps the oldest element for the POP that follows. -/
theorem peekReturnsTheOldestElementInPlace : Obligations.PeekReturnsTheOldestElementInPlace := by
  intro s
  obtain ⟨conflict, uninit, onEmpty, onSlot⟩ := read_ladder (by decide) (exec_peek .C s)
  refine ⟨decode_peek, decode_peek_P, exec_illegal rfl s, conflict, uninit, onSlot, onEmpty, fun hs hi he => ?_⟩
  exact run_peek_then_read (iP := .nop .P) (i := .pop .C) hs hi he rfl ⟨decode_nop .P, decode_peek, rfl⟩ rfl
    (.inl (by simp [Stores])) ⟨rfl, decode_pop, rfl⟩ (by decide)

/-- Settles O43: each field's own lemma names the commands that move it, and an inversion of POP and POPU gives `rd`. -/
theorem popAndPeekFrame : Obligations.PopAndPeekFrame := by
  intro x i s t hmem h
  have hd := exec_does h
  obtain ⟨rfl, hctl, hpush, hpushu⟩ : i.port = x ∧ isCtl i = false ∧ i ≠ .push .P ∧ i ≠ .pushu .P := by
    simp only [List.mem_cons, List.not_mem_nil, or_false] at hmem
    obtain rfl | rfl | rfl := hmem <;> exact ⟨rfl, rfl, nofun, nofun⟩
  obtain ⟨hparams, hviol, hin, hst, hdata⟩ := hd.frame
  have hcap : t.cap = s.cap := hd.cap_eq (by rintro y c rfl; cases hctl)
  refine ⟨hcap, hd.wr_eq hctl hpush hpushu, State.readSlot_congr hparams (hd.mem_eq_of_not_push hpush hpushu), hparams,
    hviol, hin, hst, hdata, fun hi => ?_, fun hs => ?_, fun hi hs => ?_⟩
  · exact hd.rd_eq hctl (by rw [hi]; nofun) (by rw [hi]; nofun)
  · obtain ⟨st, -, rfl⟩ := hd.eq_respond_of_not_ok hs
    exact ⟨State.respond_rd .., State.respond_draws ..⟩
  · have hpop : i ∈ [.pop i.port, .popu i.port] := by simpa [hi] using hmem
    obtain ⟨st, hne, rfl⟩ | hrd := exec_pop_next hpop h
    · rw [State.statusOn_respond, Status.code_eq_zero] at hs
      exact absurd hs hne
    · exact hrd

/-- Settles O45: PEEK keeps the block, a PUSH beside it appends to the queue, and on an empty buffer each PEEK draws. -/
theorem peekRepeatsItsAnswer : Obligations.PeekRepeatsItsAnswer := by
  refine ⟨fun s t => exec_peek_block, fun s v w hs hi hu he hw => ?_, fun s hi he => ?_⟩
  · obtain ⟨iP, hP, hctl, hchecked⟩ := producer_of_word hw
    exact run_peek_then_read hs hi he rfl ⟨hP, decode_peek, clash_of_not_ctl hctl rfl⟩ hctl (.inr ⟨hu, hchecked⟩)
      (presentsAlone_aloneOn decode_peek) (by decide)
  · obtain ⟨t, u, hrun, hfirst, hsecond, hblock⟩ := run_peek_twice_empty hi he (presentsAlone_aloneOn decode_peek)
    exact ⟨t.response, u.response, u, hrun, hfirst, hsecond, hblock⟩

end Sys2Proof.Machine
end

