-- ==== Sys2Proof/Proofs/FlushNop.lean ====
section
/-! PROOFS. Flush and no-operation of spec 45_flush_nop.md: FLUSH's ladder and the empty buffer after it, and NOP, which
needs no ladder. -/

namespace Sys2Proof

/-- The word of FLUSH, on either port (30_encoding.md R74). -/
theorem decode_flush (x : Port) : decode x 0x2000#16 = .command (.flush x) := by cases x <;> decide

end Sys2Proof

namespace Sys2Proof.Machine

/-- Settles O30: FLUSH yields to any active command and needs a capacity; its own rule leaves equal indices under it. -/
theorem flushZeroesBothIndices : Obligations.FlushZeroesBothIndices := by
  intro x s
  have hconf : inConflict (.flush x) s = s.otherActive x := inConflict_of_ctl rfl rfl
  rw [exec_flush]
  refine ⟨decode_flush x, fun ha => guarded_conflict rfl (hconf.trans ha),
    fun ha h0 => guarded_uninit rfl (hconf.trans ha) h0 rfl, fun ha hi => ⟨?_, ?_⟩⟩
  · exact guarded_pass rfl (hconf.trans ha) fun _ => hi
  · rw [State.statusOutputs_congr (State.respond_block ..)]
    exact State.statusOutputs_of_wr_eq_rd rfl hi

/-- Settles O31: NOP answers without a ladder, and it is neither a control nor an active command, so it clashes with none. -/
theorem nopAnswersOkInEveryState : Obligations.NopAnswersOkInEveryState :=
  fun x s => ⟨decode_nop x, exec_nop x s, fun i => ⟨clash_nop i x, (clash_comm _ _).trans (clash_nop i x)⟩⟩

end Sys2Proof.Machine
end

