-- ==== Sys2Proof/Proofs/Exceptions.lean ====
section
/-! PROOFS. The status codes of spec 60_exceptions.md: the ladder of R154 read backwards, CONFLICT on both ports, the
independence of the two ports' answers, and the contract flag. -/

namespace Sys2Proof.Machine

/-! ### CONFLICT -/

/-- The active commands are all but NOP (20_memory.md R60). -/
theorem isActive_iff_ne_nop {i : Instr} : isActive i = true ↔ i ≠ .nop i.port := by
  cases i with
  | nop x => exact iff_of_false nofun fun h => h rfl
  | _ => exact iff_of_true rfl nofun

/-- A command in conflict is active: NOP clashes with none (R155). -/
theorem isActive_of_inConflict {i : Instr} {s : State} (hc : inConflict i s = true) : isActive i = true := by
  cases i with
  | nop x =>
    unfold inConflict at hc
    split at hc
    · rw [clash_comm, clash_nop] at hc
      cases hc
    · cases hc
  | _ => rfl

/-- A legal command in conflict answers CONFLICT and does nothing else (R155). -/
theorem exec_conflict {i : Instr} {s : State} (hw : i.wf = true) (hc : inConflict i s = true) :
    exec i s = .next (s.respond i.port .conflict 0#32) := by
  obtain ⟨go, he⟩ := exec_eq_guarded (isActive_of_inConflict hc) s
  rw [he, guarded_conflict hw hc]

/-- Two commands that clash are both in conflict, so each side of their cycle answers CONFLICT. -/
theorem runPort_of_clash {x : Port} {i j : Instr} {s : State} (hi : s.decoded x = .command i)
    (hj : s.decoded x.other = .command j) (hn : clash i j = true) :
    runPort x s = .next (s.respond x .conflict 0#32) := by
  obtain rfl := decode_port hi
  rw [runPort_command hi, exec_conflict (decode_wf hi) ((inConflict_eq_clash hj).trans hn)]

/-! ### The ladder of R154 -/

/-- A legal command that needs a capacity answers UNINIT where there is none (R152). -/
theorem exec_uninit {i : Instr} {s : State} (hw : i.wf = true) (hc : inConflict i s = false) (h0 : s.cap = 0#8)
    (hn : needsInit i = true) : exec i s = .next (s.respond i.port .uninit 0#32) := by
  have ha : isActive i = true := by
    cases i with
    | nop => cases hn
    | _ => rfl
  obtain ⟨go, he⟩ := exec_eq_guarded ha s
  rw [he, guarded_uninit hw hc h0 hn]

/-- Past the rungs of the ladder, a command to which its own error applies answers it and does nothing else. -/
theorem exec_ownError {i : Instr} {s : State} {e : Status} (hw : i.wf = true) (hc : inConflict i s = false)
    (hn : needsInit i = true → s.cap ≠ 0#8) (he : ownError s i = some e) :
    exec i s = .next (s.respond i.port e 0#32) := by
  cases i with
  | init x c =>
    rw [exec_init, guarded_pass hw hc hn]
    obtain ⟨hv, rfl⟩ : validCap s.params c = false ∧ Status.invalidCapacity = e := by simpa [ownError] using he
    rw [hv]
    rfl
  | push x =>
    rw [exec_push, guarded_pass hw hc hn]
    obtain ⟨hf, rfl⟩ : s.isFull = true ∧ Status.overflow = e := by simpa [ownError] using he
    rw [if_pos hf]
    rfl
  | pop x =>
    rw [exec_pop, guarded_pass hw hc hn]
    obtain ⟨hempty, rfl⟩ : s.isEmpty = true ∧ Status.underflow = e := by simpa [ownError] using he
    rw [if_pos hempty]
    rfl
  | _ => cases he

/-- The state a command leads to where the other port's command does not conflict with it: the ladder of R154 without its
CONFLICT rung. `exec_next` ties it to `exec`. -/
def unopposed (i : Instr) (s : State) : State :=
  if i.wf = false then s.respond i.port .illegal 0#32
  else if s.cap = 0#8 ∧ needsInit i = true then s.respond i.port .uninit 0#32
  else ownRule i s

/-- Past the rungs of the ladder, a command that answers followed its own rule, whatever the state. -/
theorem eq_ownRule_of_exec {i : Instr} {s t : State} (hw : i.wf = true) (hc : inConflict i s = false)
    (hn : needsInit i = true → s.cap ≠ 0#8) (h : exec i s = .next t) : t = ownRule i s := by
  have pass : ∀ go, guarded i s go = go := fun go => guarded_pass hw hc hn
  have slot {k : Byte} {u : State} (hg : withSlot s k (.next u) = .next t) : t = u := by
    obtain ⟨-, hu⟩ := withSlot_next hg
    cases hu
    rfl
  have branch {b : Bool} {k : Byte} {u v : State}
      (hg : (if b then .next u else withSlot s k (.next v)) = .next t) : t = if b then u else v := by
    cases b with
    | true => cases hg; rfl
    | false => exact slot hg
  cases i with
  | nop x => cases h; rfl
  | flush x | used x | free x | empty x | full x => cases (pass _).symm.trans h; rfl
  | init x c => rw [exec_init, pass, ← apply_ite Host.Outcome.next] at h; cases h; rfl
  | pushu x => rw [exec_pushu, pass] at h; exact slot h
  | push x => rw [exec_push, pass] at h; exact branch h
  | pop x => rw [exec_pop, pass] at h; exact branch h
  | popu x => rw [exec_popu, pass] at h; exact branch h
  | peek x => rw [exec_peek, pass] at h; exact branch h

/-- Whatever command answers, it answered CONFLICT or did what it does unopposed. -/
theorem exec_next {i : Instr} {s t : State} (h : exec i s = .next t) :
    (i.wf = true ∧ isActive i = true ∧ t = s.respond i.port .conflict 0#32) ∨ t = unopposed i s := by
  unfold unopposed
  split_ifs with hw h0
  · rw [exec_illegal hw] at h
    cases h
    exact .inr rfl
  all_goals
    rw [Bool.not_eq_false] at hw
    by_cases hc : inConflict i s = true
    · rw [exec_conflict hw hc] at h
      cases h
      exact .inl ⟨hw, isActive_of_inConflict hc, rfl⟩
    rw [Bool.not_eq_true] at hc
  · rw [exec_uninit hw hc h0.1 h0.2] at h
    cases h
    exact .inr rfl
  · exact .inr (eq_ownRule_of_exec hw hc (fun hn h => h0 ⟨h, hn⟩) h)

/-- The status of a command's own rule is its own error where that applies, and OK otherwise. -/
theorem ownRule_statusOn (i : Instr) (s : State) :
    (ownRule i s).statusOn i.port = ((ownError s i).getD .ok).code := by
  cases i with
  | pushu x => exact State.statusOn_respond ..
  | init x c | push x | pop x | popu x | peek x =>
    simp only [ownRule, ownError]
    split <;> exact State.statusOn_respond ..
  | _ => exact State.statusOn_respond ..

/-- The status of a legal command: CONFLICT, UNINIT where it needs a capacity, its own error, or OK. -/
theorem exec_statusOn {i : Instr} {s t : State} (hw : i.wf = true) (h : exec i s = .next t) :
    (isActive i = true ∧ t.statusOn i.port = 6#3) ∨ (needsInit i = true ∧ t.statusOn i.port = 5#3) ∨
      t.statusOn i.port = ((ownError s i).getD .ok).code := by
  obtain ⟨-, ha, rfl⟩ | rfl := exec_next h
  · exact .inl ⟨ha, State.statusOn_respond ..⟩
  · rw [unopposed, if_neg (by simp [hw])]
    split
    · next h0 => exact .inr (.inl ⟨h0.2, State.statusOn_respond ..⟩)
    · exact .inr (.inr (ownRule_statusOn i s))

/-! ### Independence of the ports -/

/-- What a command's own rule answers does not depend on the words presented, nor on the element a push stores. -/
theorem ownRule_answer_inputs (i : Instr) (s : State) (l : List CycleIn) :
    (ownRule i { s with inputs := l }).statusOn i.port = (ownRule i s).statusOn i.port ∧
      (ownRule i { s with inputs := l }).rdataOn i.port = (ownRule i s).rdataOn i.port := by
  obtain ⟨-, -, hempty, hfull, -⟩ := State.flags_congr (s := s) (t := { s with inputs := l }) rfl
  cases i with
  | init x c | push x | pop x | popu x | peek x =>
    simp only [ownRule, hempty, hfull]
    split <;> cases x <;> exact ⟨rfl, rfl⟩
  | nop x | flush x | used x | free x | empty x | full x | pushu x => cases x <;> exact ⟨rfl, rfl⟩

/-- Unopposed, a command's answer does not depend on the words presented. -/
theorem unopposed_answer_inputs (i : Instr) (s : State) (l : List CycleIn) :
    (unopposed i { s with inputs := l }).statusOn i.port = (unopposed i s).statusOn i.port ∧
      (unopposed i { s with inputs := l }).rdataOn i.port = (unopposed i s).rdataOn i.port := by
  simp only [unopposed]
  split_ifs
  · simp only [State.statusOn_respond, State.rdataOn_respond, and_self]
  · simp only [State.statusOn_respond, State.rdataOn_respond, and_self]
  · exact ownRule_answer_inputs i s l

/-- A command that did not answer CONFLICT did what it does unopposed. -/
theorem eq_unopposed_of_not_conflict {i : Instr} {s t : State} (h : exec i s = .next t)
    (hs : t.statusOn i.port ≠ 6#3) : t = unopposed i s := by
  obtain ⟨-, -, rfl⟩ | rfl := exec_next h
  · exact absurd (State.statusOn_respond ..) hs
  · rfl

/-- Apart from CONFLICT, a port that presents one word in two cycles from one state answers the same (R156). -/
theorem runPort_answer_inputs {x : Port} {s t u : State} {l : List CycleIn}
    (hd : { s with inputs := l }.decoded x = s.decoded x) (ht : runPort x s = .next t)
    (hu : runPort x { s with inputs := l } = .next u) (hst : t.statusOn x ≠ 6#3) (hsu : u.statusOn x ≠ 6#3) :
    t.statusOn x = u.statusOn x ∧ t.rdataOn x = u.rdataOn x := by
  cases hi : s.decoded x with
  | illegal r =>
    rw [runPort_illegal hi] at ht
    rw [runPort_illegal (hd.trans hi)] at hu
    cases ht
    cases hu
    simp only [State.statusOn_respond, State.rdataOn_respond, and_self]
  | command i =>
    rw [runPort_command hi] at ht
    rw [runPort_command (hd.trans hi)] at hu
    obtain rfl := decode_port hi
    rw [eq_unopposed_of_not_conflict ht hst, eq_unopposed_of_not_conflict hu hsu]
    obtain ⟨hstatus, hdata⟩ := unopposed_answer_inputs i s l
    exact ⟨hstatus.symm, hdata.symm⟩

/-- After a step without reset each port carries what its own side of the cycle answered (R60). -/
theorem runPort_of_step {s t : State} (hr : s.pins.rst = false) (h : step s = .next t) (x : Port) :
    ∃ u, runPort x s = .next u ∧ t.statusOn x = u.statusOn x ∧ t.rdataOn x = u.rdataOn x := by
  obtain ⟨hr', -⟩ | ⟨-, p, c, hP, hC, rfl⟩ := step_next h
  · rw [hr] at hr'; cases hr'
  · cases x with
    | P => exact ⟨p, hP, rfl, rfl⟩
    | C => exact ⟨c, hC, rfl, rfl⟩

/-- Apart from CONFLICT, two cycles without reset from one state answer the same on a port that presents one word. -/
theorem step_answer_inputs {x : Port} {s t u : State} {l : List CycleIn} (ht : step s = .next t)
    (hu : step { s with inputs := l } = .next u) (hr : s.pins.rst = false)
    (hr' : { s with inputs := l }.pins.rst = false) (hd : { s with inputs := l }.decoded x = s.decoded x)
    (hst : t.statusOn x ≠ 6#3) (hsu : u.statusOn x ≠ 6#3) : t.statusOn x = u.statusOn x ∧ t.rdataOn x = u.rdataOn x := by
  obtain ⟨t', ht', hts, htd⟩ := runPort_of_step hr ht x
  obtain ⟨u', hu', hus, hud⟩ := runPort_of_step hr' hu x
  rw [hts] at hst
  rw [hus] at hsu
  obtain ⟨hstatus, hdata⟩ := runPort_answer_inputs hd ht' hu' hst hsu
  exact ⟨hts.trans (hstatus.trans hus.symm), htd.trans (hdata.trans hud.symm)⟩

/-- PUSH beside POP on a full buffer: OVERFLOW and no store, and the pop takes its element (R156). -/
theorem step_push_pop_full {s : State} (hs : s.Inv) (hi : s.Initialized) (hr : s.pins.rst = false)
    (hpair : PresentsPair s (.push .P) (.pop .C)) (hf : s.isFull = true) :
    ∃ t, step s = .next t ∧ t.pStatus = 2#3 ∧ t.cStatus = 0#3 ∧ t.wr = s.wr ∧ t.rd = nextIndex s.cap s.rd ∧
      t.mem = s.mem := by
  have he : s.isEmpty = false := by
    rw [← Bool.not_eq_true]
    exact fun he => not_empty_and_full hi ⟨he, hf⟩
  have htakes : Takes (.pop .C) s := ⟨by simp, he⟩
  have hstep := hpair.step_eq hs hi hr
  rw [ownRule_push_full hf, htakes.ownRule_eq] at hstep
  exact ⟨_, hstep, rfl, rfl, commit_self_left .., commit_self_left .., commit_self_left ..⟩

/-- PUSH beside POP on an empty buffer: UNDERFLOW and no pop, and the element is stored (R156). -/
theorem step_push_pop_empty {s : State} (hs : s.Inv) (hi : s.Initialized) (hr : s.pins.rst = false)
    (hpair : PresentsPair s (.push .P) (.pop .C)) (he : s.isEmpty = true) :
    ∃ t, step s = .next t ∧ t.pStatus = 0#3 ∧ t.cStatus = 3#3 ∧ t.rd = s.rd ∧ t.wr = nextIndex s.cap s.wr ∧
      t.readSlot s.pushSlot.toNat = s.pushOperand := by
  have hstores : Stores (.push .P) s := .inr ⟨rfl, isFull_of_empty hi ((State.isEmpty_iff s).mp he)⟩
  have hstep := hpair.step_eq hs hi hr
  rw [ownRule_pop_empty he, hstores.ownRule_eq] at hstep
  refine ⟨_, hstep, rfl, rfl, commit_self_left .., commit_self_right .., ?_⟩
  refine (State.readSlot_congr (s := s.pushed .P) ?_ ?_ _).trans (readSlot_pushed s .P)
  · exact (State.pushed_params s .P).symm
  · exact commit_self_right ..

/-! ### The contract flag, each of V1 to V7 in the terms of R160 -/

/-- R160's "executes", word for word. -/
theorem executes_iff {s : State} {x : Port} {i : Instr} :
    executes s x = some i ↔ s.decoded x = .command i ∧ inConflict i s = false ∧ s.cap ≠ 0#8 := by
  unfold executes
  split
  · next j hj =>
    rw [hj, Decoded.command.injEq]
    split
    · next hstop =>
      refine iff_of_false nofun ?_
      rintro ⟨rfl, hc, hi⟩
      obtain hc' | h0 := hstop
      · rw [hc] at hc'; cases hc'
      · exact hi h0
    · next hgo =>
      rw [not_or, Bool.not_eq_true] at hgo
      rw [Option.some.injEq]
      refine ⟨?_, And.left⟩
      rintro rfl
      exact ⟨rfl, hgo⟩
  · next r hr => simp [hr]

/-- Port C executes POP or POPU: both stand on port C in their decoded form too. -/
theorem popExecutes_iff {s : State} :
    popExecutes s = true ↔ executes s .C = some (.pop .C) ∨ executes s .C = some (.popu .C) := by
  have hport {i : Instr} (h : executes s .C = some i) : i.port = .C := decode_port (executes_iff.mp h).1
  unfold popExecutes
  split
  · next x hx => obtain rfl : x = .C := hport hx; simp [hx]
  · next x hx => obtain rfl : x = .C := hport hx; simp [hx]
  · next hpop hpopu => exact iff_of_false nofun (not_or.mpr ⟨hpop .C, hpopu .C⟩)

theorem returned_iff {t : State} {st : Status} : returned t st = true ↔ t.pStatus = st.code ∨ t.cStatus = st.code := by
  simp [returned]

theorem commits_unreadOverwritten_iff {s t : State} : commits s t .unreadOverwritten = true ↔
    executes s .P = some (.pushu .P) ∧ s.usedCount = s.cap ∧ executes s .C ≠ some (.pop .C) ∧
      executes s .C ≠ some (.popu .C) := by
  rw [commits, Bool.and_eq_true, Bool.and_eq_true, beq_iff_eq, State.isFull_iff, Bool.not_eq_true', ← Bool.not_eq_true,
    popExecutes_iff, not_or, and_assoc]

theorem commits_emptyPopped_iff {s t : State} : commits s t .emptyPopped = true ↔
    executes s .C = some (.popu .C) ∧ s.wr = s.rd := by
  rw [commits, Bool.and_eq_true, beq_iff_eq, State.isEmpty_iff]

theorem commits_emptyPeeked_iff {s t : State} : commits s t .emptyPeeked = true ↔
    executes s .C = some (.peek .C) ∧ s.wr = s.rd := by
  rw [commits, Bool.and_eq_true, beq_iff_eq, State.isEmpty_iff]

theorem commits_conflicting_iff {s t : State} : commits s t .conflicting = true ↔ t.pStatus = 6#3 ∨ t.cStatus = 6#3 :=
  returned_iff

theorem commits_uninitialized_iff {s t : State} :
    commits s t .uninitialized = true ↔ t.pStatus = 5#3 ∨ t.cStatus = 5#3 := returned_iff

theorem commits_illegalWord_iff {s t : State} : commits s t .illegalWord = true ↔ t.pStatus = 4#3 ∨ t.cStatus = 4#3 :=
  returned_iff

theorem commits_corrupted_iff {s t : State} : commits s t .corrupted = true ↔
    s.cap.toNat < s.usedCount.toNat ∧ (executes s .P ≠ none ∨ executes s .C ≠ none) := by
  rw [commits, Bool.and_eq_true, Bool.or_eq_true, decide_eq_true_iff, BitVec.lt_def, Option.isSome_iff_ne_none,
    Option.isSome_iff_ne_none]

/-- The flag after a cycle: set before it, or by a violation of the cycle (R160). -/
theorem closeCycle_violated_iff {s p c : State} : (closeCycle s p c).violated = true ↔
    s.violated = true ∨ ∃ v ∈ allViolations, commits s (closeCycle s p c) v = true := by
  have hcommits : ∀ v, commits s (closeCycle s p c) v = commits s (joinPorts s p c) v := fun v => by cases v <;> rfl
  obtain ⟨-, -, -, -, -, -, -, -, -, -, -, hviol⟩ := closeCycle_fields s p c
  simp [hviol, violations, hcommits]

/-! ### The obligations -/

/-- Settles O14: what a command answers unopposed reads none of the cycle's inputs; PUSH and POP follow their own rules at
full and at empty. -/
theorem portStatusesAreIndependent : Obligations.PortStatusesAreIndependent := by
  refine ⟨fun s t u w hr ht hu => step_answer_inputs (x := .P) ht hu hr hr rfl,
    fun s t u w v hr ht hu => step_answer_inputs (x := .C) ht hu hr hr rfl, fun s hs hi hr hP hC => ?_⟩
  have hpair : PresentsPair s (.push .P) (.pop .C) :=
    ⟨(congrArg (decode .P) hP).trans decode_push, (congrArg (decode .C) hC).trans decode_pop, rfl⟩
  exact ⟨step_push_pop_full hs hi hr hpair, step_push_pop_empty hs hi hr hpair⟩

/-- Settles O46: one lemma per rung of the ladder, and the own rule below them. -/
theorem statusPrecedence : Obligations.StatusPrecedence := by
  intro i s
  refine ⟨fun hw => exec_illegal hw s, ?_, exec_conflict, exec_uninit, fun hw hc hn =>
    ⟨fun e => exec_ownError hw hc hn, fun hs hnone => ?_⟩⟩
  · rintro x rfl
    exact exec_nop x s
  · obtain ⟨t, ht⟩ := exec_answers i hs
    refine ⟨t, ht, ?_⟩
    rw [eq_ownRule_of_exec hw hc hn ht, ownRule_statusOn, hnone]
    rfl

/-- Settles O47: INIT or FLUSH clashes with every command but NOP, and a clash stops both sides before their own rules. -/
theorem conflictStopsBothPorts : Obligations.ConflictStopsBothPorts := by
  constructor
  · intro s iP iC hr hP hC hctl
    have hn : clash iP iC = true := by
      have hxP := decode_port hP
      have hxC := decode_port hC
      rw [← hxP, ← hxC, ← isActive_iff_ne_nop, ← isActive_iff_ne_nop] at hctl
      simpa [clash] using hctl
    have hrunP := runPort_of_clash (x := .P) hP hC hn
    have hrunC := runPort_of_clash (x := .C) hC hP ((clash_comm iC iP).trans hn)
    exact ⟨_, step_ports hr hrunP hrunC, rfl, rfl, rfl, rfl, joinPorts_block_left rfl, commit_self_left ..⟩
  · rintro s i - (hnop | ⟨why, hill⟩)
    · rw [inConflict_eq_clash hnop, clash_nop]
    · rw [inConflict, hill]

/-- Settles O48: only an answer carries a status other than OK. -/
theorem errorsLeaveTheBlockUnchanged : Obligations.ErrorsLeaveTheBlockUnchanged :=
  fun _ _ _ h hs => (exec_does h).eq_respond_of_not_ok hs

/-- Settles O49: the rungs of the ladder that a command can stop at, and below them its own error or OK. -/
theorem statusCodesByCommand : Obligations.StatusCodesByCommand := by
  constructor
  · intro i s t h
    cases hw : i.wf with
    | false =>
      have hmem := wf_eq_false_iff.mp hw
      rw [exec_illegal hw] at h
      cases h
      rw [State.statusOn_respond]
      simp only [List.mem_cons, List.not_mem_nil, or_false] at hmem
      obtain rfl | rfl | rfl | rfl | rfl := hmem <;> exact List.mem_singleton_self _
    | true =>
      have hst := exec_statusOn hw h
      cases i with
      | nop x => cases h; exact List.mem_singleton.mpr (State.statusOn_respond ..)
      | init x c =>
        obtain ⟨-, hs⟩ | ⟨hn, -⟩ | hs := hst
        · simp [hs]
        · cases hn
        · cases hv : validCap s.params c <;> simp [hs, ownError, hv, Status.code]
      | flush x | used x | free x | empty x | full x =>
        obtain ⟨-, hs⟩ | ⟨-, hs⟩ | hs := hst <;> simp [hs, ownError]
      | push x =>
        obtain rfl : x = .P := by simpa [Instr.wf] using hw
        obtain ⟨-, hs⟩ | ⟨-, hs⟩ | hs := hst
        · simp [hs]
        · simp [hs]
        · cases hf : s.isFull <;> simp [hs, ownError, hf, Status.code]
      | pop x =>
        obtain rfl : x = .C := by simpa [Instr.wf] using hw
        obtain ⟨-, hs⟩ | ⟨-, hs⟩ | hs := hst
        · simp [hs]
        · simp [hs]
        · cases he : s.isEmpty <;> simp [hs, ownError, he, Status.code]
      | pushu x =>
        obtain rfl : x = .P := by simpa [Instr.wf] using hw
        obtain ⟨-, hs⟩ | ⟨-, hs⟩ | hs := hst <;> simp [hs, ownError]
      | popu x | peek x =>
        obtain rfl : x = .C := by simpa [Instr.wf] using hw
        obtain ⟨-, hs⟩ | ⟨-, hs⟩ | hs := hst <;> simp [hs, ownError]
  · intro s t hr ht
    obtain ⟨p, hP, hp, -⟩ := runPort_of_step hr ht .P
    obtain ⟨c, hC, hc, -⟩ := runPort_of_step hr ht .C
    obtain ⟨stP, hstP⟩ := runPort_statusOn_eq_code hP
    obtain ⟨stC, hstC⟩ := runPort_statusOn_eq_code hC
    exact ⟨(hp.trans hstP).trans_ne stP.code_ne_seven, (hc.trans hstC).trans_ne stC.code_ne_seven⟩

/-- Settles O50: the flag is the disjunction of its old value and the seven cases, each read off its own lemma. -/
theorem violatedIsSetExactlyByTheSevenCases : Obligations.ViolatedIsSetExactlyByTheSevenCases := by
  refine ⟨fun s x i => executes_iff, rfl, fun s t h hr => ?_, fun s t h hr => ?_⟩
  · rw [step_reset hr] at h
    cases h
    rfl
  · obtain ⟨hr', -⟩ | ⟨-, p, c, -, -, rfl⟩ := step_next h
    · rw [hr] at hr'; cases hr'
    · rw [closeCycle_violated_iff]
      simp only [allViolations, List.mem_cons, List.not_mem_nil, or_false, exists_eq_or_imp, exists_eq_left,
        commits_unreadOverwritten_iff, commits_emptyPopped_iff, commits_emptyPeeked_iff, commits_conflicting_iff,
        commits_uninitialized_iff, commits_illegalWord_iff, commits_corrupted_iff]

end Sys2Proof.Machine
end

