-- ==== Sys2Proof/Proofs/ResetHazards.lean ====
section
/-! PROOFS. Reset and runs of spec 70_reset_and_hazards.md: the reset cycle, a reset that is held, and the fresh buffer that
takes its whole capacity and gives it back. -/

namespace Sys2Proof.Machine

/-! ### Runs of many cycles -/

/-- A run of one cycle more: the first cycle's step, and the run from the state it leaves. -/
theorem run_cons {c : CycleIn} {cs : List CycleIn} {s t u : State} {os : List CycleOut}
    (ht : step { s with inputs := [c] } = .next t) (hrun : run cs t = some (os, u)) :
    run (c :: cs) s = some (t.response :: os, u) := by
  simp [run, ht, hrun]

/-- A run of one cycle that presents one command does what the command's own rule says. -/
theorem run_alone {x : Port} {i : Instr} {a : CycleIn} {s : State} (hs : s.Inv) (hi : s.Initialized)
    (h : PresentsAlone x i a) :
    ∃ t, run [a] s = some ([t.response], t) ∧ SameEffect x t (ownRule i { s with inputs := [a] }) := by
  obtain ⟨t, ht, heffect, -⟩ := step_alone (s := { s with inputs := [a] }) hs hi h
  exact ⟨t, run_one ht, heffect⟩

/-! ### Reset cycles -/

/-- One or more reset cycles leave the reset state over the storage as it was (R170, R173). -/
theorem run_resets_block {c : CycleIn} {cs : List CycleIn} {s : State} (h : ∀ a ∈ c :: cs, a.rst = true) :
    ∃ os t, run (c :: cs) s = some (os, t) ∧ t.block = (0#8, 0#8, 0#8, s.mem) := by
  induction cs generalizing c s with
  | nil => exact ⟨_, _, run_one (step_reset (h c List.mem_cons_self)), rfl⟩
  | cons b cs ih =>
    obtain ⟨hc, hrest⟩ := List.forall_mem_cons.mp h
    obtain ⟨os, t, hrun, hblock⟩ := ih hrest
    exact ⟨_, t, run_cons (step_reset hc) hrun, hblock⟩

/-! ### Filling a buffer -/

theorem presentsAlone_pushCycle (v : Elem) : PresentsAlone .P (.push .P) (pushCycle v) := ⟨rfl, decode_push, rfl⟩

theorem isFull_iff_length_queue (s : State) : s.isFull = true ↔ s.queue.length = s.cap.toNat := by
  rw [State.isFull_iff_toNat, length_queue]

/-- A PUSH with a cycle of its own, where there is room, answers OK and appends its element (R120). -/
theorem step_pushCycle {s : State} (hs : s.Inv) (hi : s.Initialized) (hroom : s.queue.length < s.cap.toNat) (v : Elem) :
    ∃ t, step { s with inputs := [pushCycle v] } = .next t ∧ t.pStatus = 0#3 ∧ t.Inv ∧ t.params = s.params ∧
      t.cap = s.cap ∧ t.queue = s.queue ++ [fit s.params.width v] := by
  set s' : State := { s with inputs := [pushCycle v] }
  have hf : s'.isFull = false := by
    rw [← Bool.not_eq_true, isFull_iff_length_queue]
    exact hroom.ne
  obtain ⟨t, ht, ⟨hblock, hst, -⟩, hparams, -⟩ := step_alone (s := s') hs hi (presentsAlone_pushCycle v)
  rw [Stores.ownRule_eq (.inr ⟨rfl, hf⟩)] at hblock hst
  obtain ⟨hcap, -⟩ := State.block_eq_iff.mp hblock
  refine ⟨t, ht, hst, step_inv (s := s') hs ht, hparams, hcap.trans (State.pushed_cap s' .P), ?_⟩
  rw [queue_congr (hparams.trans (State.pushed_params s' .P).symm) hblock]
  exact queue_pushed (s := s') .P hs hi (length_queue s ▸ hroom)

/-- As many pushes as there is room for all answer OK, and their elements stand last in the queue, in order. -/
theorem run_pushes {s : State} {vs : List Elem} (hs : s.Inv) (hi : s.Initialized)
    (hroom : s.queue.length + vs.length ≤ s.cap.toNat) :
    ∃ os t, run (vs.map pushCycle) s = some (os, t) ∧ (∀ o ∈ os, o.pStatus = 0#3) ∧ t.Inv ∧ t.cap = s.cap ∧
      t.queue = s.queue ++ vs.map (fit s.params.width) := by
  induction vs generalizing s with
  | nil => exact ⟨[], s, rfl, nofun, hs, rfl, (List.append_nil _).symm⟩
  | cons v vs ih =>
    rw [List.length_cons] at hroom
    obtain ⟨t, ht, hok, htinv, hparams, hcap, hqueue⟩ := step_pushCycle hs hi (by omega) v
    have hti : t.Initialized := by rwa [State.Initialized, hcap]
    have htroom : t.queue.length + vs.length ≤ t.cap.toNat := by
      rw [hqueue, hcap, List.length_append, List.length_singleton]
      omega
    obtain ⟨os, u, hrun, hoks, huinv, hucap, huqueue⟩ := ih htinv hti htroom
    refine ⟨_, u, run_cons ht hrun, List.forall_mem_cons.mpr ⟨hok, hoks⟩, huinv, hucap.trans hcap, ?_⟩
    rw [huqueue, hqueue, hparams, List.append_assoc]
    rfl

/-- A PUSH on a full buffer answers OVERFLOW and keeps the block (R120). -/
theorem run_push_full {s : State} (hs : s.Inv) (hi : s.Initialized) (hf : s.isFull = true) (v : Elem) :
    ∃ o u, run [pushCycle v] s = some ([o], u) ∧ o.pStatus = 2#3 ∧ u.block = s.block := by
  obtain ⟨u, hrun, hblock, hst, -⟩ := run_alone hs hi (presentsAlone_pushCycle v)
  rw [ownRule_push_full (s := { s with inputs := [pushCycle v] }) hf] at hblock hst
  exact ⟨u.response, u, hrun, hst, hblock⟩

/-! ### Emptying a buffer -/

theorem presentsAlone_popCycle : PresentsAlone .C (.pop .C) popCycle := ⟨rfl, decode_pop, rfl⟩

/-- As many pops as there are elements at the front of the queue return them in order, all OK, and leave the rest. -/
theorem run_pops {s : State} {ds q : List Elem} (hs : s.Inv) (hi : s.Initialized) (hq : s.queue = ds ++ q) :
    ∃ os t, run (List.replicate ds.length popCycle) s = some (os, t) ∧ (∀ o ∈ os, o.cStatus = 0#3) ∧
      os.map CycleOut.cRdata = ds ∧ t.Inv ∧ t.Initialized ∧ t.queue = q := by
  induction ds generalizing s with
  | nil => exact ⟨[], s, rfl, nofun, rfl, hs, hi, hq⟩
  | cons d ds ih =>
    obtain ⟨t, ht, hok, hdata, hti, htq⟩ :=
      step_pop_alone (s := { s with inputs := [popCycle] }) hs hi presentsAlone_popCycle hq
    have htinv : t.Inv := step_inv (s := { s with inputs := [popCycle] }) hs ht
    obtain ⟨os, u, hrun, hoks, hdatas, hu⟩ := ih htinv hti htq
    exact ⟨_, u, run_cons ht hrun, List.forall_mem_cons.mpr ⟨hok, hoks⟩, congrArg₂ List.cons hdata hdatas, hu⟩

/-- Fewer pops than there are elements leave the buffer non-empty. -/
theorem run_pops_not_empty {s : State} {k : Nat} (hs : s.Inv) (hi : s.Initialized) (hk : k < s.queue.length) :
    ∃ os t, run (List.replicate k popCycle) s = some (os, t) ∧ t.isEmpty = false := by
  obtain ⟨os, t, hrun, -, -, htinv, hti, hqueue⟩ := run_pops hs hi (List.take_append_drop k s.queue).symm
  rw [List.length_take_of_le hk.le] at hrun
  refine ⟨os, t, hrun, ?_⟩
  rw [← Bool.not_eq_true, isEmpty_iff_queue htinv hti, hqueue, List.drop_eq_nil_iff]
  exact hk.not_ge

/-- A POP on an empty buffer answers UNDERFLOW (R130). -/
theorem run_pop_empty {s : State} (hs : s.Inv) (hi : s.Initialized) (he : s.isEmpty = true) :
    ∃ o t, run [popCycle] s = some ([o], t) ∧ o.cStatus = 3#3 := by
  obtain ⟨t, hrun, -, hst, -⟩ := run_alone hs hi presentsAlone_popCycle
  rw [ownRule_pop_empty (s := { s with inputs := [popCycle] }) he] at hst
  exact ⟨t.response, t, hrun, hst⟩

/-! ### The obligations -/

/-- Settles O17: the reset keeps the storage list itself, and its registers are those of the uninitialized block of R97. -/
theorem resetCycleZeroesRegistersAndKeepsStorage : Obligations.ResetCycleZeroesRegistersAndKeepsStorage := by
  intro s hr
  obtain ⟨houtputs, -⟩ := uninitializedOutputsAndQueries.1 s.resetBlock.nextInputs rfl rfl rfl
  exact ⟨_, step_reset hr, rfl, rfl, rfl, State.readSlot_congr rfl rfl, rfl, rfl, rfl, houtputs, rfl, rfl, rfl, rfl⟩

/-- Settles O18, by induction on the cycles; without a capacity the ladder of R154 ends at UNINIT. -/
theorem heldResetKeepsTheResetState : Obligations.HeldResetKeepsTheResetState := by
  intro s cs hne hcs
  cases cs with
  | nil => exact absurd rfl hne
  | cons c cs =>
    obtain ⟨os, t, hrun, hblock⟩ := run_resets_block (s := s) hcs
    have hcap : t.cap = 0#8 := congrArg Prod.fst hblock
    exact ⟨os, t, hrun, hblock, fun i hw hneed hc => exec_uninit hw hc hcap hneed⟩

/-- Settles O53: the pushes build the queue of their elements, full once it is as long as the capacity, and the pops take
it apart from the front. -/
theorem freshBufferHoldsExactlyItsCapacity : Obligations.FreshBufferHoldsExactlyItsCapacity := by
  intro s vs v hs hi hrd hwr hlen
  have hfresh : s.queue = [] := by
    rw [← isEmpty_iff_queue hs hi, State.isEmpty_iff, hrd, hwr]
  constructor
  · intro k hk
    have htake : (vs.take k).length = k := List.length_take_of_le hk.le
    obtain ⟨os, t, hrun, -, -, hcap, hqueue⟩ :=
      run_pushes (vs := vs.take k) hs hi (by rw [hfresh, htake, List.length_nil]; omega)
    refine ⟨os, t, hrun, ?_⟩
    rw [← Bool.not_eq_true, isFull_iff_length_queue, hqueue, hcap, hfresh, List.nil_append, List.length_map, htake]
    omega
  · obtain ⟨os, t, hrun, hok, htinv, hcap, hqueue⟩ :=
      run_pushes (vs := vs) hs hi (by rw [hfresh, List.length_nil]; omega)
    rw [hfresh, List.nil_append] at hqueue
    have hti : t.Initialized := by rwa [State.Initialized, hcap]
    have htlen : t.queue.length = vs.length := by rw [hqueue, List.length_map]
    have hfull : t.isFull = true := by rw [isFull_iff_length_queue, htlen, hcap, hlen]
    obtain ⟨ds, u, hpops, hdok, hdata, huinv, hui, huqueue⟩ := run_pops htinv hti (List.append_nil t.queue).symm
    have hempty : u.isEmpty = true := (isEmpty_iff_queue huinv hui).mpr huqueue
    exact ⟨os, t, hrun, hok, hfull, run_push_full htinv hti hfull v,
      fun k hk => run_pops_not_empty htinv hti (htlen ▸ hk),
      ds, u, htlen ▸ hpops, hdok, hdata.trans hqueue, hempty, run_pop_empty huinv hui hempty⟩

end Sys2Proof.Machine
end
